-- ==== Sys2Proof/Word.lean ====
section
/-! DEFINITION. The words of the machine: a Word is 32 bits (00_scope R8), a byte 8 bits (20_memory R51), a
register index 5 bits (10_state R21). The unsigned view u(v) of R8 is `BitVec.toNat`, the signed view s(v) is
`BitVec.toInt`. -/

namespace Sys2Proof

/-- A register value, the pc, an address or an instruction word: 32 bits (00_scope R8). -/
abbrev Word := BitVec 32

/-- The smallest addressable unit of memory: 8 bits (20_memory R50, R51). -/
abbrev Byte := BitVec 8

/-- A register index, as the fields rd, rs1 and rs2 hold it: 5 bits (10_state R21). -/
abbrev Reg := BitVec 5

end Sys2Proof
end

