-- ==== Sys2Proof/Machine/Flags.lean ====
section
/-! DEFINITION. The machine has no flags (10_state R30). What other machines compute as flags is here the outcome of a
comparison, which a compare instruction writes as the Word 0 or 1 and a branch decides on. -/

namespace Sys2Proof.Machine

/-- Signed less-than, on the signed views (40_arith_logic_imm R122, 41_arith_logic_reg R144, 44_control_flow R205). -/
def ltSigned (a b : Word) : Bool := decide (a.toInt < b.toInt)

/-- Unsigned less-than (40_arith_logic_imm R123, 41_arith_logic_reg R145, 44_control_flow R207). -/
def ltUnsigned (a b : Word) : Bool := decide (a.toNat < b.toNat)

/-- Equality of two Words (44_control_flow R203). -/
def eqWord (a b : Word) : Bool := decide (a = b)

/-- The Word 1 or the Word 0 (40_arith_logic_imm R122: "never anything else"). -/
def boolWord (c : Bool) : Word := if c then 1#32 else 0#32

end Sys2Proof.Machine
end

