-- ==== Sys2Proof/WellFormed.lean ====
section
/-! DEFINITION. Which instructions an encoding can hold: the immediate of each format is a Word of that format's
range (30_encoding R90 to R94). Register indices and shift amounts are 5 bits by their type. -/

namespace Sys2Proof

/-- imm_I and imm_S: the sign extension of 12 bits, -2048 to 2047 (30_encoding R90, R91). -/
def fitsImm12 (imm : Word) : Bool := decide (-2048 ≤ imm.toInt ∧ imm.toInt ≤ 2047)

/-- imm_B: even, -4096 to 4094 (30_encoding R92). -/
def fitsImmB (imm : Word) : Bool := decide (-4096 ≤ imm.toInt ∧ imm.toInt ≤ 4094 ∧ imm.toNat % 2 = 0)

/-- imm_U: the low 12 bits are zero (30_encoding R93). -/
def fitsImmU (imm : Word) : Bool := decide (imm.toNat % 4096 = 0)

/-- imm_J: even, -1048576 to 1048574 (30_encoding R94). -/
def fitsImmJ (imm : Word) : Bool := decide (-1048576 ≤ imm.toInt ∧ imm.toInt ≤ 1048574 ∧ imm.toNat % 2 = 0)

/-- The immediate fits the instruction's format. -/
def Instr.wellFormed : Instr → Bool
  | .lui _ imm | .auipc _ imm => fitsImmU imm
  | .jal _ imm => fitsImmJ imm
  | .beq _ _ imm | .bne _ _ imm | .blt _ _ imm | .bge _ _ imm | .bltu _ _ imm | .bgeu _ _ imm => fitsImmB imm
  | .jalr _ _ imm => fitsImm12 imm
  | .lb _ _ imm | .lh _ _ imm | .lw _ _ imm | .lbu _ _ imm | .lhu _ _ imm => fitsImm12 imm
  | .sb _ _ imm | .sh _ _ imm | .sw _ _ imm => fitsImm12 imm
  | .addi _ _ imm | .slti _ _ imm | .sltiu _ _ imm | .xori _ _ imm | .ori _ _ imm | .andi _ _ imm => fitsImm12 imm
  | .slli _ _ _ | .srli _ _ _ | .srai _ _ _ => true
  | .add _ _ _ | .sub _ _ _ | .sll _ _ _ | .slt _ _ _ | .sltu _ _ _ | .xor _ _ _ | .srl _ _ _ | .sra _ _ _ => true
  | .or _ _ _ | .and _ _ _ => true
  | .mul _ _ _ | .mulh _ _ _ | .mulhsu _ _ _ | .mulhu _ _ _ | .div _ _ _ | .divu _ _ _ | .rem _ _ _ => true
  | .remu _ _ _ => true
  | .ebreak => true

end Sys2Proof
end

