-- ==== Sys2Proof/Decode.lean ====
section
/-! DEFINITION. From a 32-bit word to an instruction or a rejection by name (30_encoding R80 to R107), and back. The
register and selector field positions and all numeric selector values are the spec's R82 and R100 to R104. -/

namespace Sys2Proof

/-! ## Fields (00_scope R10, 30_encoding R81 to R83) -/

def opcodeOf (inst : Word) : BitVec 7 := inst.extractLsb' 0 7
def rdOf (inst : Word) : Reg := inst.extractLsb' 7 5
def funct3Of (inst : Word) : BitVec 3 := inst.extractLsb' 12 3
def rs1Of (inst : Word) : Reg := inst.extractLsb' 15 5
def rs2Of (inst : Word) : Reg := inst.extractLsb' 20 5
def funct7Of (inst : Word) : BitVec 7 := inst.extractLsb' 25 7

/-- Bit `i` of the instruction word as a one-bit value, for the immediates that scatter their bits. -/
def bitOf (inst : Word) (i : Nat) : BitVec 1 := inst.extractLsb' i 1

/-! ## Immediates (30_encoding R90 to R95) -/

/-- R90: bits[31:20] to imm[11:0], sign-extended. -/
def immI (inst : Word) : Word := (inst.extractLsb' 20 12).signExtend 32

/-- R91: bits[31:25] to imm[11:5], bits[11:7] to imm[4:0], sign-extended. -/
def immS (inst : Word) : Word := (inst.extractLsb' 25 7 ++ inst.extractLsb' 7 5).signExtend 32

/-- R92: bit 31, bit 7, bits[30:25], bits[11:8], then a zero bit, sign-extended. -/
def immB (inst : Word) : Word :=
  (bitOf inst 31 ++ bitOf inst 7 ++ inst.extractLsb' 25 6 ++ inst.extractLsb' 8 4 ++ 0#1).signExtend 32

/-- R93: bits[31:12] in place, the low 12 bits zero. -/
def immU (inst : Word) : Word := inst.extractLsb' 12 20 ++ 0#12

/-- R94: bit 31, bits[19:12], bit 20, bits[30:21], then a zero bit, sign-extended. -/
def immJ (inst : Word) : Word :=
  (bitOf inst 31 ++ inst.extractLsb' 12 8 ++ bitOf inst 20 ++ inst.extractLsb' 21 10 ++ 0#1).signExtend 32

/-- R95: the shift amount of the OP-IMM shifts, inst[24:20]. -/
def shamtOf (inst : Word) : BitVec 5 := inst.extractLsb' 20 5

/-! ## Decoding (30_encoding R100 to R106) -/

/-- Why a word is none of the 46 instructions (30_encoding R101, R105); the machine treats all alike. -/
inductive Invalid where
  /-- Fewer than the four bytes of an instruction were given (only a caller that hands bytes, never a fetch). -/
  | tooFewBytes
  /-- The opcode is not one of the ten of R100. -/
  | opcode
  /-- JALR with funct3 other than 000 (R102). -/
  | jalrFunct3
  /-- BRANCH with funct3 010 or 011 (R102). -/
  | branchFunct3
  /-- LOAD with funct3 011, 110 or 111 (R102). -/
  | loadFunct3
  /-- STORE with funct3 011 to 111 (R102). -/
  | storeFunct3
  /-- An OP-IMM shift whose inst[31:25] is no listed selector (R103). -/
  | opImmShift
  /-- OP with a funct7 and funct3 that R104 does not pair. -/
  | opFunct
  /-- A SYSTEM word other than `0x00100073` (R106). -/
  | system
deriving DecidableEq, Repr

/-- BRANCH (R102). -/
def decodeBranch (w : Word) : Except Invalid Instr :=
  if funct3Of w = 0b000#3 then .ok (.beq (rs1Of w) (rs2Of w) (immB w))
  else if funct3Of w = 0b001#3 then .ok (.bne (rs1Of w) (rs2Of w) (immB w))
  else if funct3Of w = 0b100#3 then .ok (.blt (rs1Of w) (rs2Of w) (immB w))
  else if funct3Of w = 0b101#3 then .ok (.bge (rs1Of w) (rs2Of w) (immB w))
  else if funct3Of w = 0b110#3 then .ok (.bltu (rs1Of w) (rs2Of w) (immB w))
  else if funct3Of w = 0b111#3 then .ok (.bgeu (rs1Of w) (rs2Of w) (immB w))
  else .error .branchFunct3

/-- LOAD (R102). -/
def decodeLoad (w : Word) : Except Invalid Instr :=
  if funct3Of w = 0b000#3 then .ok (.lb (rdOf w) (rs1Of w) (immI w))
  else if funct3Of w = 0b001#3 then .ok (.lh (rdOf w) (rs1Of w) (immI w))
  else if funct3Of w = 0b010#3 then .ok (.lw (rdOf w) (rs1Of w) (immI w))
  else if funct3Of w = 0b100#3 then .ok (.lbu (rdOf w) (rs1Of w) (immI w))
  else if funct3Of w = 0b101#3 then .ok (.lhu (rdOf w) (rs1Of w) (immI w))
  else .error .loadFunct3

/-- STORE (R102). -/
def decodeStore (w : Word) : Except Invalid Instr :=
  if funct3Of w = 0b000#3 then .ok (.sb (rs1Of w) (rs2Of w) (immS w))
  else if funct3Of w = 0b001#3 then .ok (.sh (rs1Of w) (rs2Of w) (immS w))
  else if funct3Of w = 0b010#3 then .ok (.sw (rs1Of w) (rs2Of w) (immS w))
  else .error .storeFunct3

/-- OP-IMM (R103). -/
def decodeOpImm (w : Word) : Except Invalid Instr :=
  if funct3Of w = 0b000#3 then .ok (.addi (rdOf w) (rs1Of w) (immI w))
  else if funct3Of w = 0b010#3 then .ok (.slti (rdOf w) (rs1Of w) (immI w))
  else if funct3Of w = 0b011#3 then .ok (.sltiu (rdOf w) (rs1Of w) (immI w))
  else if funct3Of w = 0b100#3 then .ok (.xori (rdOf w) (rs1Of w) (immI w))
  else if funct3Of w = 0b110#3 then .ok (.ori (rdOf w) (rs1Of w) (immI w))
  else if funct3Of w = 0b111#3 then .ok (.andi (rdOf w) (rs1Of w) (immI w))
  else if funct3Of w = 0b001#3 ∧ funct7Of w = 0b0000000#7 then .ok (.slli (rdOf w) (rs1Of w) (shamtOf w))
  else if funct3Of w = 0b101#3 ∧ funct7Of w = 0b0000000#7 then .ok (.srli (rdOf w) (rs1Of w) (shamtOf w))
  else if funct3Of w = 0b101#3 ∧ funct7Of w = 0b0100000#7 then .ok (.srai (rdOf w) (rs1Of w) (shamtOf w))
  else .error .opImmShift

/-- The funct7 = 0000000 column of R104. -/
def decodeOpBase (w : Word) : Instr :=
  if funct3Of w = 0b000#3 then .add (rdOf w) (rs1Of w) (rs2Of w)
  else if funct3Of w = 0b001#3 then .sll (rdOf w) (rs1Of w) (rs2Of w)
  else if funct3Of w = 0b010#3 then .slt (rdOf w) (rs1Of w) (rs2Of w)
  else if funct3Of w = 0b011#3 then .sltu (rdOf w) (rs1Of w) (rs2Of w)
  else if funct3Of w = 0b100#3 then .xor (rdOf w) (rs1Of w) (rs2Of w)
  else if funct3Of w = 0b101#3 then .srl (rdOf w) (rs1Of w) (rs2Of w)
  else if funct3Of w = 0b110#3 then .or (rdOf w) (rs1Of w) (rs2Of w)
  else .and (rdOf w) (rs1Of w) (rs2Of w)

/-- The funct7 = 0000001 column of R104. -/
def decodeMulDiv (w : Word) : Instr :=
  if funct3Of w = 0b000#3 then .mul (rdOf w) (rs1Of w) (rs2Of w)
  else if funct3Of w = 0b001#3 then .mulh (rdOf w) (rs1Of w) (rs2Of w)
  else if funct3Of w = 0b010#3 then .mulhsu (rdOf w) (rs1Of w) (rs2Of w)
  else if funct3Of w = 0b011#3 then .mulhu (rdOf w) (rs1Of w) (rs2Of w)
  else if funct3Of w = 0b100#3 then .div (rdOf w) (rs1Of w) (rs2Of w)
  else if funct3Of w = 0b101#3 then .divu (rdOf w) (rs1Of w) (rs2Of w)
  else if funct3Of w = 0b110#3 then .rem (rdOf w) (rs1Of w) (rs2Of w)
  else .remu (rdOf w) (rs1Of w) (rs2Of w)

/-- OP (R104). -/
def decodeOp (w : Word) : Except Invalid Instr :=
  if funct7Of w = 0b0000000#7 then .ok (decodeOpBase w)
  else if funct7Of w = 0b0000001#7 then .ok (decodeMulDiv w)
  else if funct7Of w = 0b0100000#7 ∧ funct3Of w = 0b000#3 then .ok (.sub (rdOf w) (rs1Of w) (rs2Of w))
  else if funct7Of w = 0b0100000#7 ∧ funct3Of w = 0b101#3 then .ok (.sra (rdOf w) (rs1Of w) (rs2Of w))
  else .error .opFunct

/-- The decode procedure of R101, a pure function of the word (R80, R85). -/
def decode (w : Word) : Except Invalid Instr :=
  if opcodeOf w = 0b0110111#7 then .ok (.lui (rdOf w) (immU w))
  else if opcodeOf w = 0b0010111#7 then .ok (.auipc (rdOf w) (immU w))
  else if opcodeOf w = 0b1101111#7 then .ok (.jal (rdOf w) (immJ w))
  else if opcodeOf w = 0b1100111#7 then
    if funct3Of w = 0b000#3 then .ok (.jalr (rdOf w) (rs1Of w) (immI w)) else .error .jalrFunct3
  else if opcodeOf w = 0b1100011#7 then decodeBranch w
  else if opcodeOf w = 0b0000011#7 then decodeLoad w
  else if opcodeOf w = 0b0100011#7 then decodeStore w
  else if opcodeOf w = 0b0010011#7 then decodeOpImm w
  else if opcodeOf w = 0b0110011#7 then decodeOp w
  else if opcodeOf w = 0b1110011#7 then
    if w = 0x00100073#32 then .ok .ebreak else .error .system
  else .error .opcode

/-- The word whose four bytes stand at rising addresses: little-endian (30_encoding R80, 20_memory R57). -/
def wordOfBytes (b0 b1 b2 b3 : Byte) : Word := b3 ++ b2 ++ b1 ++ b0

/-- The four bytes of a word, lowest address first. -/
def bytesOfWord (w : Word) : List Byte :=
  [w.extractLsb' 0 8, w.extractLsb' 8 8, w.extractLsb' 16 8, w.extractLsb' 24 8]

/-- Decoding any bytes: the instruction and the bytes after it, or a rejection by name. -/
def decodeBytes : List Byte → Except Invalid (Instr × List Byte)
  | b0 :: b1 :: b2 :: b3 :: rest =>
    match decode (wordOfBytes b0 b1 b2 b3) with
    | .ok i => .ok (i, rest)
    | .error e => .error e
  | _ => .error .tooFewBytes

/-- What the decoder reads from a word numbered as spec/opcode_table.json numbers it: `nbits` bits of `w`, every bit
above them zero, the bytes laid out as the hardware stores them. -/
def decodeTableWord (nbits w : Nat) : Option Instr :=
  match decodeBytes (bytesOfWord (BitVec.ofNat 32 (w % 2 ^ nbits))) with
  | .ok (i, _) => some i
  | .error _ => none

/-! ## Encoding (the format table R83, read the other way) -/

/-- The six columns of the format table R83, most significant first. -/
def assemble (top7 : BitVec 7) (f2 f1 : BitVec 5) (f3 : BitVec 3) (low5 : BitVec 5) (op : BitVec 7) : Word :=
  top7 ++ f2 ++ f1 ++ f3 ++ low5 ++ op

/-- R format. -/
def encodeR (funct7 : BitVec 7) (funct3 : BitVec 3) (op : BitVec 7) (rd rs1 rs2 : Reg) : Word :=
  assemble funct7 rs2 rs1 funct3 rd op

/-- I format: imm[11:5] and imm[4:0] in the two upper columns. -/
def encodeI (funct3 : BitVec 3) (op : BitVec 7) (rd rs1 : Reg) (imm : Word) : Word :=
  assemble (imm.extractLsb' 5 7) (imm.extractLsb' 0 5) rs1 funct3 rd op

/-- S format. -/
def encodeS (funct3 : BitVec 3) (rs1 rs2 : Reg) (imm : Word) : Word :=
  assemble (imm.extractLsb' 5 7) rs2 rs1 funct3 (imm.extractLsb' 0 5) 0b0100011#7

/-- B format: imm[12], imm[10:5] above, imm[4:1], imm[11] below. -/
def encodeB (funct3 : BitVec 3) (rs1 rs2 : Reg) (imm : Word) : Word :=
  assemble (imm.extractLsb' 12 1 ++ imm.extractLsb' 5 6) rs2 rs1 funct3
    (imm.extractLsb' 1 4 ++ imm.extractLsb' 11 1) 0b1100011#7

/-- U format. -/
def encodeU (op : BitVec 7) (rd : Reg) (imm : Word) : Word :=
  assemble (imm.extractLsb' 25 7) (imm.extractLsb' 20 5) (imm.extractLsb' 15 5) (imm.extractLsb' 12 3) rd op

/-- J format: imm[20], imm[10:5]; imm[4:1], imm[11]; imm[19:15]; imm[14:12]. -/
def encodeJ (rd : Reg) (imm : Word) : Word :=
  assemble (imm.extractLsb' 20 1 ++ imm.extractLsb' 5 6) (imm.extractLsb' 1 4 ++ imm.extractLsb' 11 1)
    (imm.extractLsb' 15 5) (imm.extractLsb' 12 3) rd 0b1101111#7

/-- The word of an instruction (30_encoding R83, R100 to R106). -/
def encode : Instr → Word
  | .lui rd imm => encodeU 0b0110111#7 rd imm
  | .auipc rd imm => encodeU 0b0010111#7 rd imm
  | .jal rd imm => encodeJ rd imm
  | .jalr rd rs1 imm => encodeI 0b000#3 0b1100111#7 rd rs1 imm
  | .beq rs1 rs2 imm => encodeB 0b000#3 rs1 rs2 imm
  | .bne rs1 rs2 imm => encodeB 0b001#3 rs1 rs2 imm
  | .blt rs1 rs2 imm => encodeB 0b100#3 rs1 rs2 imm
  | .bge rs1 rs2 imm => encodeB 0b101#3 rs1 rs2 imm
  | .bltu rs1 rs2 imm => encodeB 0b110#3 rs1 rs2 imm
  | .bgeu rs1 rs2 imm => encodeB 0b111#3 rs1 rs2 imm
  | .lb rd rs1 imm => encodeI 0b000#3 0b0000011#7 rd rs1 imm
  | .lh rd rs1 imm => encodeI 0b001#3 0b0000011#7 rd rs1 imm
  | .lw rd rs1 imm => encodeI 0b010#3 0b0000011#7 rd rs1 imm
  | .lbu rd rs1 imm => encodeI 0b100#3 0b0000011#7 rd rs1 imm
  | .lhu rd rs1 imm => encodeI 0b101#3 0b0000011#7 rd rs1 imm
  | .sb rs1 rs2 imm => encodeS 0b000#3 rs1 rs2 imm
  | .sh rs1 rs2 imm => encodeS 0b001#3 rs1 rs2 imm
  | .sw rs1 rs2 imm => encodeS 0b010#3 rs1 rs2 imm
  | .addi rd rs1 imm => encodeI 0b000#3 0b0010011#7 rd rs1 imm
  | .slti rd rs1 imm => encodeI 0b010#3 0b0010011#7 rd rs1 imm
  | .sltiu rd rs1 imm => encodeI 0b011#3 0b0010011#7 rd rs1 imm
  | .xori rd rs1 imm => encodeI 0b100#3 0b0010011#7 rd rs1 imm
  | .ori rd rs1 imm => encodeI 0b110#3 0b0010011#7 rd rs1 imm
  | .andi rd rs1 imm => encodeI 0b111#3 0b0010011#7 rd rs1 imm
  | .slli rd rs1 shamt => encodeR 0b0000000#7 0b001#3 0b0010011#7 rd rs1 shamt
  | .srli rd rs1 shamt => encodeR 0b0000000#7 0b101#3 0b0010011#7 rd rs1 shamt
  | .srai rd rs1 shamt => encodeR 0b0100000#7 0b101#3 0b0010011#7 rd rs1 shamt
  | .add rd rs1 rs2 => encodeR 0b0000000#7 0b000#3 0b0110011#7 rd rs1 rs2
  | .sub rd rs1 rs2 => encodeR 0b0100000#7 0b000#3 0b0110011#7 rd rs1 rs2
  | .sll rd rs1 rs2 => encodeR 0b0000000#7 0b001#3 0b0110011#7 rd rs1 rs2
  | .slt rd rs1 rs2 => encodeR 0b0000000#7 0b010#3 0b0110011#7 rd rs1 rs2
  | .sltu rd rs1 rs2 => encodeR 0b0000000#7 0b011#3 0b0110011#7 rd rs1 rs2
  | .xor rd rs1 rs2 => encodeR 0b0000000#7 0b100#3 0b0110011#7 rd rs1 rs2
  | .srl rd rs1 rs2 => encodeR 0b0000000#7 0b101#3 0b0110011#7 rd rs1 rs2
  | .sra rd rs1 rs2 => encodeR 0b0100000#7 0b101#3 0b0110011#7 rd rs1 rs2
  | .or rd rs1 rs2 => encodeR 0b0000000#7 0b110#3 0b0110011#7 rd rs1 rs2
  | .and rd rs1 rs2 => encodeR 0b0000000#7 0b111#3 0b0110011#7 rd rs1 rs2
  | .mul rd rs1 rs2 => encodeR 0b0000001#7 0b000#3 0b0110011#7 rd rs1 rs2
  | .mulh rd rs1 rs2 => encodeR 0b0000001#7 0b001#3 0b0110011#7 rd rs1 rs2
  | .mulhsu rd rs1 rs2 => encodeR 0b0000001#7 0b010#3 0b0110011#7 rd rs1 rs2
  | .mulhu rd rs1 rs2 => encodeR 0b0000001#7 0b011#3 0b0110011#7 rd rs1 rs2
  | .div rd rs1 rs2 => encodeR 0b0000001#7 0b100#3 0b0110011#7 rd rs1 rs2
  | .divu rd rs1 rs2 => encodeR 0b0000001#7 0b101#3 0b0110011#7 rd rs1 rs2
  | .rem rd rs1 rs2 => encodeR 0b0000001#7 0b110#3 0b0110011#7 rd rs1 rs2
  | .remu rd rs1 rs2 => encodeR 0b0000001#7 0b111#3 0b0110011#7 rd rs1 rs2
  | .ebreak => 0x00100073#32

/-- The bytes of an instruction as memory holds it, lowest address first. -/
def encodeBytes (i : Instr) : List Byte := bytesOfWord (encode i)

/-! ## The opcode table (spec/opcode_table.json), for the statements that compare the decoder with it -/

/-- A row of spec/opcode_table.json: a word is the row's instruction exactly when `word &&& mask = bits`
(30_encoding R105). -/
structure OpcodeRow where
  bits : Word
  mask : Word
deriving DecidableEq, Repr

/-- The row of an instruction's mnemonic. -/
def rowOf : Instr → OpcodeRow
  | .lui _ _ => ⟨0x00000037#32, 0x0000007f#32⟩
  | .auipc _ _ => ⟨0x00000017#32, 0x0000007f#32⟩
  | .jal _ _ => ⟨0x0000006f#32, 0x0000007f#32⟩
  | .jalr _ _ _ => ⟨0x00000067#32, 0x0000707f#32⟩
  | .beq _ _ _ => ⟨0x00000063#32, 0x0000707f#32⟩
  | .bne _ _ _ => ⟨0x00001063#32, 0x0000707f#32⟩
  | .blt _ _ _ => ⟨0x00004063#32, 0x0000707f#32⟩
  | .bge _ _ _ => ⟨0x00005063#32, 0x0000707f#32⟩
  | .bltu _ _ _ => ⟨0x00006063#32, 0x0000707f#32⟩
  | .bgeu _ _ _ => ⟨0x00007063#32, 0x0000707f#32⟩
  | .lb _ _ _ => ⟨0x00000003#32, 0x0000707f#32⟩
  | .lh _ _ _ => ⟨0x00001003#32, 0x0000707f#32⟩
  | .lw _ _ _ => ⟨0x00002003#32, 0x0000707f#32⟩
  | .lbu _ _ _ => ⟨0x00004003#32, 0x0000707f#32⟩
  | .lhu _ _ _ => ⟨0x00005003#32, 0x0000707f#32⟩
  | .sb _ _ _ => ⟨0x00000023#32, 0x0000707f#32⟩
  | .sh _ _ _ => ⟨0x00001023#32, 0x0000707f#32⟩
  | .sw _ _ _ => ⟨0x00002023#32, 0x0000707f#32⟩
  | .addi _ _ _ => ⟨0x00000013#32, 0x0000707f#32⟩
  | .slti _ _ _ => ⟨0x00002013#32, 0x0000707f#32⟩
  | .sltiu _ _ _ => ⟨0x00003013#32, 0x0000707f#32⟩
  | .xori _ _ _ => ⟨0x00004013#32, 0x0000707f#32⟩
  | .ori _ _ _ => ⟨0x00006013#32, 0x0000707f#32⟩
  | .andi _ _ _ => ⟨0x00007013#32, 0x0000707f#32⟩
  | .slli _ _ _ => ⟨0x00001013#32, 0xfe00707f#32⟩
  | .srli _ _ _ => ⟨0x00005013#32, 0xfe00707f#32⟩
  | .srai _ _ _ => ⟨0x40005013#32, 0xfe00707f#32⟩
  | .add _ _ _ => ⟨0x00000033#32, 0xfe00707f#32⟩
  | .sub _ _ _ => ⟨0x40000033#32, 0xfe00707f#32⟩
  | .sll _ _ _ => ⟨0x00001033#32, 0xfe00707f#32⟩
  | .slt _ _ _ => ⟨0x00002033#32, 0xfe00707f#32⟩
  | .sltu _ _ _ => ⟨0x00003033#32, 0xfe00707f#32⟩
  | .xor _ _ _ => ⟨0x00004033#32, 0xfe00707f#32⟩
  | .srl _ _ _ => ⟨0x00005033#32, 0xfe00707f#32⟩
  | .sra _ _ _ => ⟨0x40005033#32, 0xfe00707f#32⟩
  | .or _ _ _ => ⟨0x00006033#32, 0xfe00707f#32⟩
  | .and _ _ _ => ⟨0x00007033#32, 0xfe00707f#32⟩
  | .mul _ _ _ => ⟨0x02000033#32, 0xfe00707f#32⟩
  | .mulh _ _ _ => ⟨0x02001033#32, 0xfe00707f#32⟩
  | .mulhsu _ _ _ => ⟨0x02002033#32, 0xfe00707f#32⟩
  | .mulhu _ _ _ => ⟨0x02003033#32, 0xfe00707f#32⟩
  | .div _ _ _ => ⟨0x02004033#32, 0xfe00707f#32⟩
  | .divu _ _ _ => ⟨0x02005033#32, 0xfe00707f#32⟩
  | .rem _ _ _ => ⟨0x02006033#32, 0xfe00707f#32⟩
  | .remu _ _ _ => ⟨0x02007033#32, 0xfe00707f#32⟩
  | .ebreak => ⟨0x00100073#32, 0xffffffff#32⟩

/-- All 46 rows. -/
def opcodeTable : List OpcodeRow :=
  [rowOf (.lui 0 0), rowOf (.auipc 0 0), rowOf (.jal 0 0), rowOf (.jalr 0 0 0), rowOf (.beq 0 0 0), rowOf (.bne 0 0 0), rowOf (.blt 0 0 0), rowOf (.bge 0 0 0), rowOf (.bltu 0 0 0), rowOf (.bgeu 0 0 0)] ++
  [rowOf (.lb 0 0 0), rowOf (.lh 0 0 0), rowOf (.lw 0 0 0), rowOf (.lbu 0 0 0), rowOf (.lhu 0 0 0), rowOf (.sb 0 0 0), rowOf (.sh 0 0 0), rowOf (.sw 0 0 0)] ++
  [rowOf (.addi 0 0 0), rowOf (.slti 0 0 0), rowOf (.sltiu 0 0 0), rowOf (.xori 0 0 0), rowOf (.ori 0 0 0), rowOf (.andi 0 0 0), rowOf (.slli 0 0 0), rowOf (.srli 0 0 0), rowOf (.srai 0 0 0)] ++
  [rowOf (.add 0 0 0), rowOf (.sub 0 0 0), rowOf (.sll 0 0 0), rowOf (.slt 0 0 0), rowOf (.sltu 0 0 0), rowOf (.xor 0 0 0), rowOf (.srl 0 0 0), rowOf (.sra 0 0 0), rowOf (.or 0 0 0), rowOf (.and 0 0 0)] ++
  [rowOf (.mul 0 0 0), rowOf (.mulh 0 0 0), rowOf (.mulhsu 0 0 0), rowOf (.mulhu 0 0 0), rowOf (.div 0 0 0), rowOf (.divu 0 0 0), rowOf (.rem 0 0 0), rowOf (.remu 0 0 0), rowOf .ebreak]

/-- The word is this row's instruction. -/
def OpcodeRow.matches (r : OpcodeRow) (w : Word) : Bool := decide (w &&& r.mask = r.bits)

end Sys2Proof
end

