-- ==== Sys2Proof/Config.lean ====
section
/-! DEFINITION. What an implementation fixes: the open parameters of 00_scope R6 and their suggested defaults.
`STRICT_DECODE` and `MISALIGNED_OK` of the same rule are fixed to true by the spec, which gives no rule for the other
setting, so they are no parameters here. -/

namespace Sys2Proof

/-- DIV_POLICY (00_scope R6, 42_muldiv R169): what a division corner does. -/
inductive DivPolicy where
  /-- The RISC-V results; the step is an ordinary one (the default). -/
  | riscv
  /-- Every corner ends the machine, as a memory fault does. -/
  | fatal
deriving DecidableEq, Repr

/-- The parameters that the document names without a value (00_scope R6, 92_eei_decisions D2, D12). -/
structure Params where
  /-- MBASE, the address of the first byte of memory. -/
  memBase     : Word
  /-- MSIZE, the number of bytes of memory. -/
  memSize     : Nat
  /-- RESET_OFFSET, the distance of the reset pc from MBASE. -/
  resetOffset : Nat
  /-- DIV_POLICY. -/
  divPolicy   : DivPolicy
deriving DecidableEq, Repr

/-- The constraints of 00_scope R6: the built-in image fits, every byte of memory has a 32-bit address, the first
fetch is in range. -/
def Params.wf (p : Params) : Bool :=
  decide (20 ≤ p.memSize ∧ p.memBase.toNat + p.memSize ≤ 2 ^ 32 ∧ p.resetOffset + 4 ≤ p.memSize)

/-- The suggested defaults of 00_scope R6 (PRESUMED: log 2). -/
def Config.defaults : Params :=
  { memBase := 0x80000000#32, memSize := 0x08000000, resetOffset := 0, divPolicy := .riscv }

/-- What a byte of memory reads as where the machine's memory lists nothing: zero (DESIGN CHOICE: log 4; the
document's filler is arbitrary, 20_memory R61, and any filler is expressed by the bytes a memory lists). -/
def Config.unlistedByte : Byte := 0#8

end Sys2Proof
end

