-- ==== Sys2Proof/Machine/State.lean ====
section
/-! DEFINITION. The state of the block (10_state R20), plain data, and its value at reset (R40). -/

namespace Sys2Proof.Machine

/-- The run state, owned by the Monitor (10_state R33). -/
inductive RunState where
  /-- A batch is in progress. -/
  | running
  /-- Idle, and can run. -/
  | stopped
  /-- The program halted through ebreak with x[10] = 0. -/
  | ended
  /-- The program halted through ebreak with x[10] ≠ 0, or ran an invalid word. -/
  | aborted
  /-- The user asked to leave. -/
  | quitting
deriving DecidableEq, Repr

/-- Memory as plain data: (address, byte) pairs, addresses strictly rising, no byte equal to what an unlisted address
reads as (`Config.unlistedByte`). `Memory.wf` in Machine/Ops.lean says so. -/
abbrev Memory := List Host.Cell

/-- The complete state of 10_state R20. -/
structure State where
  /-- The general registers x[0] to x[31] (R21). Slot 0 is never written and is zero at reset. -/
  regs     : Vector Word 32
  /-- The program counter (R27). -/
  pc       : Word
  /-- The bytes of `[MBASE, MBASE + MSIZE)` (20_memory R51). -/
  mem      : Memory
  /-- The run state (R33). -/
  runState : RunState
  /-- The instruction counter, unbounded (R34; log 10). -/
  icount   : Nat
  /-- Set by a fatal fault, never cleared (R35). -/
  crashed  : Bool
  /-- The MODEL'S own field: the parameters of 00_scope R6, which no step writes (log 1). -/
  params   : Params
deriving DecidableEq, Repr

/-- Why the machine stops. All of them are safe: the machine of the spec has no successor there, or has only the
successor `crashed` that `step` takes. -/
inductive Fault where
  /-- An access of `n` bytes at `addr` is not inside memory (20_memory R53). Raised by fetch, the loads, the stores and
  the host's memory inspection; the step that meets it sets `crashed` (60_exceptions R246). Safe. -/
  | memFault (addr : Word) (n : Nat)
  /-- An access of a length other than 1, 2, 4, 8 (20_memory R52). Raised by a direct call of the memory unit only, by
  no instruction. Safe. -/
  | lenFault (n : Nat)
  /-- A division corner under DIV_POLICY = fatal (42_muldiv R169). Raised by div, divu, rem, remu; the step that meets
  it sets `crashed`. Safe. -/
  | divFault
  /-- The machine is already crashed: no operation is defined any more (60_exceptions R246, 93 U7). Raised by `step`
  and by every host operation. Safe. -/
  | crashed
deriving DecidableEq, Repr

/-- Why the model gives no successor. -/
inductive Refusal where
  /-- An instruction without a meaning; exec's arms alone would answer it, and none does. Safe. -/
  | notModelled (mnemonic : String)
  /-- The launch parameters break the constraints of 00_scope R6. Raised by `start`: no machine exists. Safe. -/
  | launchParameters
  /-- The image is longer than memory (20_memory R62, 93 U14). Raised by `start` and `loadImage`: no machine exists. Safe. -/
  | imageTooLarge
deriving DecidableEq, Repr

/-- A step or a host operation on the block ends in one of the three outcomes. -/
abbrev Result := Host.Outcome State Fault Refusal

/-- The outcomes other than Continue that end a step (60_exceptions R241, R242). The information they carry is an
annotation, not architectural state (R242). -/
inductive Trap where
  /-- `ebreak` (R245). -/
  | ebreak
  /-- The fetched word is no instruction (R244). -/
  | invalidInstruction (inst : Word)
  /-- MemFault, LenFault or DivFault (R246). -/
  | fatal (f : Fault)
deriving DecidableEq, Repr

/-- The machine right after reset (10_state R40), with the default parameters (log 2): pc at MBASE + RESET_OFFSET, x[0]
clear, Stopped, counter 0, not crashed. x[1] to x[31] hold zero (DESIGN CHOICE: log 3), memory lists nothing (log 4,
log 5): the start-up of 70_reset_and_hazards R301 with an empty caller-supplied image. -/
def State.reset : State :=
  { regs := Vector.replicate 32 0#32
    pc := Config.defaults.memBase + BitVec.ofNat 32 Config.defaults.resetOffset
    mem := []
    runState := .stopped
    icount := 0
    crashed := false
    params := Config.defaults }

end Sys2Proof.Machine
end

