-- ==== Sys2Proof/Machine/Ops.lean ====
section
/-! DEFINITION. The named operations over registers, memory and the run state that every meaning is written with:
register read and write (10_state R22, R23), the memory unit (20_memory R52 to R55), commit, and the ONE operation that
takes a trap (60_exceptions R244 to R246) with the explicit reset beside it (R304: nothing else leaves a trap, R254). -/

namespace Sys2Proof.Machine

/-! ## Registers and pc -/

/-- `x[i]` (10_state R22): register 0 reads zero always. -/
def State.readReg (s : State) (i : Reg) : Word :=
  if i = 0#5 then 0#32 else s.regs[i.toNat]'i.isLt

/-- `x[i] <- v` (10_state R23): a write to register 0 is discarded. -/
def State.writeReg (s : State) (i : Reg) (v : Word) : State :=
  if i = 0#5 then s else { s with regs := s.regs.set i.toNat v i.isLt }

/-- `pc <- v` (10_state R27, R29: any Word, no check). -/
def State.setPc (s : State) (v : Word) : State := { s with pc := v }

/-- `pc <- pc + 4` modulo 2^32, the default next pc (10_state R27, R28). -/
def State.advance (s : State) : State := s.setPc (s.pc + 4#32)

/-- The commit of a step that has a destination register and a next pc (60_exceptions R240 step 5). -/
def State.commit (s : State) (rd : Reg) (v nextPc : Word) : State := (s.writeReg rd v).setPc nextPc

/-- The commit of a step whose next pc is the default one. -/
def State.retire (s : State) (rd : Reg) (v : Word) : State := s.commit rd v (s.pc + 4#32)

/-! ## Memory as data -/

/-- The byte at an address; an address that is not listed reads `Config.unlistedByte` (log 4). -/
def Memory.read : Memory → Nat → Byte
  | [], _ => Config.unlistedByte
  | (k, b) :: m, a => if a = k then b else Memory.read m a

/-- One byte replaced, the canonical form kept: writing what an unlisted address reads as removes the entry. -/
def Memory.write : Memory → Nat → Byte → Memory
  | [], a, v => if v = Config.unlistedByte then [] else [(a, v)]
  | (k, b) :: m, a, v =>
    if a < k then (if v = Config.unlistedByte then (k, b) :: m else (a, v) :: (k, b) :: m)
    else if a = k then (if v = Config.unlistedByte then m else (a, v) :: m)
    else (k, b) :: Memory.write m a v

/-- Every listed address is `lo` or more, they rise strictly, and no listed byte is the unlisted one. -/
def Memory.wfFrom : Nat → Memory → Bool
  | _, [] => true
  | lo, (k, b) :: m => decide (lo ≤ k) && decide (b ≠ Config.unlistedByte) && Memory.wfFrom (k + 1) m

/-- The canonical form of a memory. -/
def Memory.wf (m : Memory) : Bool := Memory.wfFrom 0 m

/-- The bytes at `a`, `a + 1`, …, `a + n - 1`, in that order. -/
def Memory.bytes (m : Memory) (a : Nat) : Nat → List Byte
  | 0 => []
  | n + 1 => m.read a :: Memory.bytes m (a + 1) n

/-- Bytes stored at `a`, `a + 1`, …, in that order. -/
def Memory.writeBytes : Memory → Nat → List Byte → Memory
  | m, _, [] => m
  | m, a, b :: bs => Memory.writeBytes (m.write a b) (a + 1) bs

/-- The value of bytes, least significant first: the sum of Mem[addr+i] · 2^(8i) (20_memory R54). -/
def leValue : List Byte → Nat
  | [] => 0
  | b :: bs => b.toNat + 256 * leValue bs

/-- The low `n` bytes of a value, least significant first: byte i is v[8i+7 : 8i] (20_memory R55). -/
def leBytes : Nat → Nat → List Byte
  | 0, _ => []
  | n + 1, v => BitVec.ofNat 8 v :: leBytes n (v / 256)

/-! ## The memory unit -/

/-- The lengths the memory unit accepts (20_memory R52). -/
abbrev validLength (n : Nat) : Prop := n = 1 ∨ n = 2 ∨ n = 4 ∨ n = 8

/-- The access of `n` bytes at `a` lies inside `[MBASE, MBASE + MSIZE)`, on exact integers (20_memory R53). -/
abbrev InRange (p : Params) (a n : Nat) : Prop := p.memBase.toNat ≤ a ∧ a + n ≤ p.memBase.toNat + p.memSize

/-- The two checks of every access, the length first (20_memory R52, R53). -/
def State.checkAccess (s : State) (a : Word) (n : Nat) : Except Fault Unit :=
  if ¬ validLength n then .error (.lenFault n)
  else if ¬ InRange s.params a.toNat n then .error (.memFault a n)
  else .ok ()

/-- `MemRead(addr, n)` (20_memory R54): a value of 8n bits. -/
def State.memRead (s : State) (a : Word) (n : Nat) : Except Fault Nat :=
  match s.checkAccess a n with
  | .error f => .error f
  | .ok _ => .ok (leValue (s.mem.bytes a.toNat n))

/-- `MemWrite(addr, n, v)` (20_memory R55): stores the low 8n bits of `v`; a failing check writes no byte. -/
def State.memWrite (s : State) (a : Word) (n v : Nat) : Except Fault State :=
  match s.checkAccess a n with
  | .error f => .error f
  | .ok _ => .ok { s with mem := s.mem.writeBytes a.toNat (leBytes n v) }

/-- Instruction fetch, `MemRead(pc, 4)` (20_memory R60). -/
def State.fetch (s : State) : Except Fault Word :=
  match s.memRead s.pc 4 with
  | .error f => .error f
  | .ok v => .ok (BitVec.ofNat 32 v)

/-- A word stored where the next fetch reads; nothing changes where that is outside memory. -/
def State.placeWord (s : State) (w : Word) : State :=
  match s.memWrite s.pc 4 w.toNat with
  | .error _ => s
  | .ok t => t

/-! ## Traps -/

/-- Taking a trap (60_exceptions R244 to R246, R249). Nothing is saved anywhere and control goes nowhere: the run state
or the `crashed` mark changes, no register, no byte of memory and not the pc. -/
def State.takeTrap (s : State) : Trap → State
  | .ebreak => { s with runState := if s.readReg 10#5 = 0#32 then .ended else .aborted }
  | .invalidInstruction _ => { s with runState := .aborted }
  | .fatal _ => { s with crashed := true }

/-- The reset operation (70_reset_and_hazards R300): the pc, and x[0]; nothing else. -/
def State.resetCore (s : State) : State :=
  { s with pc := s.params.memBase + BitVec.ofNat 32 s.params.resetOffset, regs := s.regs.set 0 0#32 }

/-- The explicit reset, the only way out of Ended and Aborted (70_reset_and_hazards R304, 60_exceptions R254). -/
def State.explicitReset (s : State) : State := { s.resetCore with runState := .stopped, icount := 0 }

/-! ## The Monitor around a step -/

/-- The instruction counter counts a step that returned an outcome (60_exceptions R260). -/
def State.countStep (s : State) : State := { s with icount := s.icount + 1 }

/-- `execute` runs instructions in these run states only (60_exceptions R251). -/
def RunState.canRun : RunState → Bool
  | .running | .stopped => true
  | .ended | .aborted | .quitting => false

/-- What the Monitor makes of the engine's outcome on `s` (60_exceptions R243 to R246, R251): a step that returned is
counted; a fatal fault crashes the machine as it stood before the step, uncounted. -/
def State.monitor (s : State) : Result → Result
  | .next t => .next t.countStep
  | .fault f => .next (s.takeTrap (.fatal f))
  | .refused r => .refused r

end Sys2Proof.Machine
end

