-- ==== Sys2Proof/Machine/Operands.lean ====
section
/-! DEFINITION. Every operand form of the spec (30_encoding R96): a register, an immediate Word, the low five bits of a
register as a shift amount, and the addresses made of a register or the pc and an immediate, all modulo 2^32
(00_scope R8). -/

namespace Sys2Proof.Machine

/-- The effective address of a load or a store, `x[rs1] + imm` (43_load_store R180). -/
def State.effAddr (s : State) (rs1 : Reg) (imm : Word) : Word := s.readReg rs1 + imm

/-- The pc plus an immediate: the target of `jal` and of a taken branch (44_control_flow R201, R203), the result of
`auipc` (45_lui_auipc R221). -/
def State.pcPlus (s : State) (imm : Word) : Word := s.pc + imm

/-- The target of `jalr`: the sum with its low bit cleared (44_control_flow R202). -/
def State.jalrTarget (s : State) (rs1 : Reg) (imm : Word) : Word := (s.readReg rs1 + imm) &&& 0xFFFFFFFE#32

/-- The link value, "old_pc+4" (44_control_flow R201, R202). -/
def State.link (s : State) : Word := s.pc + 4#32

/-- The shift amount of `sll`, `srl`, `sra`: the low five bits of the second operand (41_arith_logic_reg R143). -/
def shiftAmount (v : Word) : Nat := (v.extractLsb' 0 5).toNat

/-- The low 8 bits of a value read, sign-extended (43_load_store R181). -/
def sext8 (v : Nat) : Word := (BitVec.ofNat 8 v).signExtend 32

/-- The low 16 bits of a value read, sign-extended (43_load_store R182). -/
def sext16 (v : Nat) : Word := (BitVec.ofNat 16 v).signExtend 32

/-- The low 8 bits of a value read, zero-extended (43_load_store R184). -/
def zext8 (v : Nat) : Word := (BitVec.ofNat 8 v).zeroExtend 32

/-- The low 16 bits of a value read, zero-extended (43_load_store R185). -/
def zext16 (v : Nat) : Word := (BitVec.ofNat 16 v).zeroExtend 32

/-- A whole word read (43_load_store R183). -/
def word32 (v : Nat) : Word := BitVec.ofNat 32 v

end Sys2Proof.Machine
end

