-- ==== Sys2Proof/Machine/ArithImm.lean ====
section
/-! DEFINITION. Arithmetic and logic with an immediate, OP-IMM (40_arith_logic_imm). -/

namespace Sys2Proof.Machine

/-- R121: modulo 2^32, no overflow signal. -/
def execAddi (rd rs1 : Reg) (imm : Word) (s : State) : Result := .next (s.retire rd (s.readReg rs1 + imm))

/-- R122. -/
def execSlti (rd rs1 : Reg) (imm : Word) (s : State) : Result := .next (s.retire rd (boolWord (ltSigned (s.readReg rs1) imm)))

/-- R123: the sign-extended immediate compared as an unsigned Word. -/
def execSltiu (rd rs1 : Reg) (imm : Word) (s : State) : Result := .next (s.retire rd (boolWord (ltUnsigned (s.readReg rs1) imm)))

/-- R124. -/
def execXori (rd rs1 : Reg) (imm : Word) (s : State) : Result := .next (s.retire rd (s.readReg rs1 ^^^ imm))

/-- R125. -/
def execOri (rd rs1 : Reg) (imm : Word) (s : State) : Result := .next (s.retire rd (s.readReg rs1 ||| imm))

/-- R126. -/
def execAndi (rd rs1 : Reg) (imm : Word) (s : State) : Result := .next (s.retire rd (s.readReg rs1 &&& imm))

/-- R127. -/
def execSlli (rd rs1 : Reg) (shamt : BitVec 5) (s : State) : Result := .next (s.retire rd (s.readReg rs1 <<< shamt.toNat))

/-- R128. -/
def execSrli (rd rs1 : Reg) (shamt : BitVec 5) (s : State) : Result := .next (s.retire rd (s.readReg rs1 >>> shamt.toNat))

/-- R129: copies of bit 31 enter. -/
def execSrai (rd rs1 : Reg) (shamt : BitVec 5) (s : State) : Result := .next (s.retire rd ((s.readReg rs1).sshiftRight shamt.toNat))

end Sys2Proof.Machine
end

