-- ==== Sys2Proof/Machine/ArithReg.lean ====
section
/-! DEFINITION. Arithmetic and logic, register-register, OP (41_arith_logic_reg). -/

namespace Sys2Proof.Machine

/-- R141. -/
def execAdd (rd rs1 rs2 : Reg) (s : State) : Result := .next (s.retire rd (s.readReg rs1 + s.readReg rs2))

/-- R142. -/
def execSub (rd rs1 rs2 : Reg) (s : State) : Result := .next (s.retire rd (s.readReg rs1 - s.readReg rs2))

/-- R143. -/
def execSll (rd rs1 rs2 : Reg) (s : State) : Result :=
  .next (s.retire rd (s.readReg rs1 <<< shiftAmount (s.readReg rs2)))

/-- R144. -/
def execSlt (rd rs1 rs2 : Reg) (s : State) : Result :=
  .next (s.retire rd (boolWord (ltSigned (s.readReg rs1) (s.readReg rs2))))

/-- R145. -/
def execSltu (rd rs1 rs2 : Reg) (s : State) : Result :=
  .next (s.retire rd (boolWord (ltUnsigned (s.readReg rs1) (s.readReg rs2))))

/-- R146. -/
def execXor (rd rs1 rs2 : Reg) (s : State) : Result := .next (s.retire rd (s.readReg rs1 ^^^ s.readReg rs2))

/-- R147. -/
def execSrl (rd rs1 rs2 : Reg) (s : State) : Result :=
  .next (s.retire rd (s.readReg rs1 >>> shiftAmount (s.readReg rs2)))

/-- R148. -/
def execSra (rd rs1 rs2 : Reg) (s : State) : Result :=
  .next (s.retire rd ((s.readReg rs1).sshiftRight (shiftAmount (s.readReg rs2))))

/-- R149. -/
def execOr (rd rs1 rs2 : Reg) (s : State) : Result := .next (s.retire rd (s.readReg rs1 ||| s.readReg rs2))

/-- R150. -/
def execAnd (rd rs1 rs2 : Reg) (s : State) : Result := .next (s.retire rd (s.readReg rs1 &&& s.readReg rs2))

end Sys2Proof.Machine
end

