-- ==== Sys2Proof/Machine/Control.lean ====
section
/-! DEFINITION. JAL, JALR and BRANCH (44_control_flow). No target is checked (R200, R209). -/

namespace Sys2Proof.Machine

/-- R201: the link, then the jump to `pc + imm_J`. -/
def execJal (rd : Reg) (imm : Word) (s : State) : Result := .next (s.commit rd s.link (s.pcPlus imm))

/-- R202: the target comes from the value x[rs1] had at the start of the step, also when rd = rs1. -/
def execJalr (rd rs1 : Reg) (imm : Word) (s : State) : Result := .next (s.commit rd s.link (s.jalrTarget rs1 imm))

/-- A branch: `pc + imm_B` if the comparison holds, else `pc + 4`; no register is written (R200). -/
def branchIf (c : Bool) (imm : Word) (s : State) : Result := .next (if c then s.setPc (s.pcPlus imm) else s.advance)

/-- R203. -/
def execBeq (rs1 rs2 : Reg) (imm : Word) (s : State) : Result := branchIf (eqWord (s.readReg rs1) (s.readReg rs2)) imm s

/-- R204. -/
def execBne (rs1 rs2 : Reg) (imm : Word) (s : State) : Result := branchIf (!eqWord (s.readReg rs1) (s.readReg rs2)) imm s

/-- R205. -/
def execBlt (rs1 rs2 : Reg) (imm : Word) (s : State) : Result := branchIf (ltSigned (s.readReg rs1) (s.readReg rs2)) imm s

/-- R206: the exact complement of blt. -/
def execBge (rs1 rs2 : Reg) (imm : Word) (s : State) : Result := branchIf (!ltSigned (s.readReg rs1) (s.readReg rs2)) imm s

/-- R207. -/
def execBltu (rs1 rs2 : Reg) (imm : Word) (s : State) : Result := branchIf (ltUnsigned (s.readReg rs1) (s.readReg rs2)) imm s

/-- R208: the exact complement of bltu. -/
def execBgeu (rs1 rs2 : Reg) (imm : Word) (s : State) : Result := branchIf (!ltUnsigned (s.readReg rs1) (s.readReg rs2)) imm s

end Sys2Proof.Machine
end

