-- ==== Sys2Proof/Machine/LoadStore.lean ====
section
/-! DEFINITION. Loads and stores (43_load_store). Any alignment is accepted (20_memory R58); an access out of range
faults as a whole and changes nothing (R180). -/

namespace Sys2Proof.Machine

/-- A load of `n` bytes, widened by `ext`. The memory is read, and may fault, also when rd is x0 (R180). -/
def load (n : Nat) (ext : Nat → Word) (rd rs1 : Reg) (imm : Word) (s : State) : Result :=
  match s.memRead (s.effAddr rs1 imm) n with
  | .error f => .fault f
  | .ok v => .next (s.retire rd (ext v))

/-- A store of the low `n` bytes of x[rs2]. -/
def store (n : Nat) (rs1 rs2 : Reg) (imm : Word) (s : State) : Result :=
  match s.memWrite (s.effAddr rs1 imm) n (s.readReg rs2).toNat with
  | .error f => .fault f
  | .ok t => .next t.advance

/-- R181. -/
def execLb (rd rs1 : Reg) (imm : Word) (s : State) : Result := load 1 sext8 rd rs1 imm s

/-- R182. -/
def execLh (rd rs1 : Reg) (imm : Word) (s : State) : Result := load 2 sext16 rd rs1 imm s

/-- R183. -/
def execLw (rd rs1 : Reg) (imm : Word) (s : State) : Result := load 4 word32 rd rs1 imm s

/-- R184. -/
def execLbu (rd rs1 : Reg) (imm : Word) (s : State) : Result := load 1 zext8 rd rs1 imm s

/-- R185. -/
def execLhu (rd rs1 : Reg) (imm : Word) (s : State) : Result := load 2 zext16 rd rs1 imm s

/-- R186. -/
def execSb (rs1 rs2 : Reg) (imm : Word) (s : State) : Result := store 1 rs1 rs2 imm s

/-- R187. -/
def execSh (rs1 rs2 : Reg) (imm : Word) (s : State) : Result := store 2 rs1 rs2 imm s

/-- R188. -/
def execSw (rs1 rs2 : Reg) (imm : Word) (s : State) : Result := store 4 rs1 rs2 imm s

end Sys2Proof.Machine
end

