-- ==== Sys2Proof/Machine/MulDiv.lean ====
section
/-! DEFINITION. Multiply, divide, remainder (42_muldiv). Products are formed exactly and then cut; quotients round
toward zero (R160). -/

namespace Sys2Proof.Machine

/-- Bits 31..0 of an exact product. -/
def lowWord (p : Int) : Word := BitVec.ofInt 32 p

/-- Bits 63..32 of the 64-bit two's-complement form of an exact product (R162). -/
def highWord (p : Int) : Word := (BitVec.ofInt 64 p).extractLsb' 32 32

/-- R161: signed or unsigned makes no difference to the low word. -/
def execMul (rd rs1 rs2 : Reg) (s : State) : Result :=
  .next (s.retire rd (lowWord ((s.readReg rs1).toInt * (s.readReg rs2).toInt)))

/-- R162. -/
def execMulh (rd rs1 rs2 : Reg) (s : State) : Result :=
  .next (s.retire rd (highWord ((s.readReg rs1).toInt * (s.readReg rs2).toInt)))

/-- R163: rs1 signed, rs2 unsigned. -/
def execMulhsu (rd rs1 rs2 : Reg) (s : State) : Result :=
  .next (s.retire rd (highWord ((s.readReg rs1).toInt * ((s.readReg rs2).toNat : Int))))

/-- R164. -/
def execMulhu (rd rs1 rs2 : Reg) (s : State) : Result :=
  .next (s.retire rd (highWord (((s.readReg rs1).toNat : Int) * ((s.readReg rs2).toNat : Int))))

/-- The signed quotient, rounded toward zero (R165). -/
def quotSigned (a b : Word) : Word := BitVec.ofInt 32 (a.toInt.tdiv b.toInt)

/-- The signed remainder, with the sign of the dividend (R167): s(a) - q * s(b). -/
def remSigned (a b : Word) : Word := BitVec.ofInt 32 (a.toInt - a.toInt.tdiv b.toInt * b.toInt)

/-- The unsigned quotient (R166). -/
def quotUnsigned (a b : Word) : Word := BitVec.ofNat 32 (a.toNat / b.toNat)

/-- The unsigned remainder (R168). -/
def remUnsigned (a b : Word) : Word := BitVec.ofNat 32 (a.toNat % b.toNat)

/-- The division corners (R169). -/
inductive DivCorner where
  | byZero
  | overflow
deriving DecidableEq, Repr

/-- The corner a signed division meets (R165, R167), if any. -/
def signedCorner (a b : Word) : Option DivCorner :=
  if b = 0#32 then some .byZero
  else if a = 0x80000000#32 ∧ b = 0xFFFFFFFF#32 then some .overflow
  else none

/-- The corner an unsigned division meets (R166, R168): the zero divisor only. -/
def unsignedCorner (b : Word) : Option DivCorner := if b = 0#32 then some .byZero else none

/-- A division: the ordinary result; in a corner the policy's answer, the corner's result or the end of the machine
(R169). -/
def divide (corner : Option DivCorner) (cornerResult : DivCorner → Word) (ordinary : Word) (rd : Reg) (s : State) : Result :=
  match corner with
  | none => .next (s.retire rd ordinary)
  | some c =>
    match s.params.divPolicy with
    | .riscv => .next (s.retire rd (cornerResult c))
    | .fatal => .fault .divFault

/-- The quotient's results in the corners (R169): all ones by zero, the dividend on overflow. -/
def quotCorner (a : Word) : DivCorner → Word
  | .byZero => 0xFFFFFFFF#32
  | .overflow => a

/-- The remainder's results in the corners (R169): the dividend by zero, zero on overflow. -/
def remCorner (a : Word) : DivCorner → Word
  | .byZero => a
  | .overflow => 0#32

/-- R165. -/
def execDiv (rd rs1 rs2 : Reg) (s : State) : Result :=
  divide (signedCorner (s.readReg rs1) (s.readReg rs2)) (quotCorner (s.readReg rs1))
    (quotSigned (s.readReg rs1) (s.readReg rs2)) rd s

/-- R166. -/
def execDivu (rd rs1 rs2 : Reg) (s : State) : Result :=
  divide (unsignedCorner (s.readReg rs2)) (quotCorner (s.readReg rs1))
    (quotUnsigned (s.readReg rs1) (s.readReg rs2)) rd s

/-- R167. -/
def execRem (rd rs1 rs2 : Reg) (s : State) : Result :=
  divide (signedCorner (s.readReg rs1) (s.readReg rs2)) (remCorner (s.readReg rs1))
    (remSigned (s.readReg rs1) (s.readReg rs2)) rd s

/-- R168. -/
def execRemu (rd rs1 rs2 : Reg) (s : State) : Result :=
  divide (unsignedCorner (s.readReg rs2)) (remCorner (s.readReg rs1))
    (remUnsigned (s.readReg rs1) (s.readReg rs2)) rd s

end Sys2Proof.Machine
end

