-- ==== Sys2Proof/Machine/System.lean ====
section
/-! DEFINITION. EBREAK (46_system). -/

namespace Sys2Proof.Machine

/-- R230: takes the Ebreak trap, always; the Monitor's halting convention reads x[10] (60_exceptions R249). -/
def execEbreak (s : State) : Result := .next (s.takeTrap .ebreak)

end Sys2Proof.Machine
end

