-- ==== Sys2Proof/Machine/Upper.lean ====
section
/-! DEFINITION. LUI and AUIPC (45_lui_auipc). -/

namespace Sys2Proof.Machine

/-- R220: `x[rd] <- imm_U`. -/
def execLui (rd : Reg) (imm : Word) (s : State) : Result := .next (s.retire rd imm)

/-- R221: `x[rd] <- pc + imm_U`. -/
def execAuipc (rd : Reg) (imm : Word) (s : State) : Result := .next (s.retire rd (s.pcPlus imm))

end Sys2Proof.Machine
end

