-- ==== Sys2Proof/Machine/Engine.lean ====
section
/-! DEFINITION. One step: the ExecutionEngine's fetch, decode, execute (60_exceptions R240) and the Monitor's
bookkeeping around it (R243 to R246, R251, R260). -/

namespace Sys2Proof.Machine

/-- R240: fetch, decode, execute and commit, in this order; the first condition met ends the step (R247). -/
def engineStep (s : State) : Result :=
  match s.fetch with
  | .error f => .fault f
  | .ok w =>
    match decode w with
    | .error _ => .next (s.takeTrap (.invalidInstruction w))
    | .ok i => exec i s

/-- One turn of the loop of R251, which is also what the host's single step does (R273; log 8): nothing is defined on a
crashed machine (R246); a machine that is Ended, Aborted or Quitting does not run and does not change (R250; log 7). -/
def monitorStep (s : State) : Result :=
  if s.crashed then .fault .crashed
  else if s.runState.canRun then s.monitor (engineStep s)
  else .next s

end Sys2Proof.Machine
end

