-- ==== Sys2Proof/Machine/Step.lean ====
section
/-! DEFINITION. The machine's step. -/

namespace Sys2Proof.Machine

/-- One step of the machine: one instruction (60_exceptions R240, R251). -/
def step (s : State) : Host.Outcome State Fault Refusal := monitorStep s

/-- `s` with the instruction of `nbits` bits `w` stored at the pc, where `step` fetches (20_memory R60). It stands for
the image load from outside the machine (log 5). -/
def State.withFetchWord (s : State) (nbits w : Nat) : State := s.placeWord (BitVec.ofNat 32 (w % 2 ^ nbits))

end Sys2Proof.Machine
end

