-- ==== Sys2Proof/Machine/RegNames.lean ====
section
/-! DEFINITION. The register names that the host's expressions use (10_state R26). The hardware knows registers by
index only. -/

namespace Sys2Proof.Machine

/-- The 32 names in index order (10_state R26; the order beyond zero, t0 and a0 is PRESUMED by the spec: log 12). -/
def regNames : List String :=
  ["zero", "ra", "sp", "gp", "tp", "t0", "t1", "t2"] ++
  ["s0", "s1", "a0", "a1", "a2", "a3", "a4", "a5"] ++
  ["a6", "a7", "s2", "s3", "s4", "s5", "s6", "s7"] ++
  ["s8", "s9", "s10", "s11", "t3", "t4", "t5", "t6"]

/-- The position of a name in a list of names. -/
def positionOf (name : String) : List String → Nat → Option Nat
  | [], _ => none
  | n :: ns, k => if n = name then some k else positionOf name ns (k + 1)

/-- `index_of(name)`: an index, or none for NotFound (10_state R26). -/
def indexOf (name : String) : Option Reg := (positionOf name regNames 0).map (BitVec.ofNat 5)

end Sys2Proof.Machine
end

