-- ==== Sys2Proof/Machine/Monitor.lean ====
section
/-! DEFINITION. The host's operations on the block between batches (60_exceptions R250 to R253, R270 to R273). Nothing is
defined on a crashed machine (R246): every operation here stops with `Fault.crashed` there. -/

namespace Sys2Proof.Machine

/-- The loop of `execute` (60_exceptions R251): at most `n` steps, left as soon as the run state is not Running or the
machine crashed. -/
def batch : Nat → State → Result
  | 0, s => .next s
  | n + 1, s =>
    if s.runState = .running ∧ s.crashed = false then
      match step s with
      | .next t => batch n t
      | .fault f => .fault f
      | .refused r => .refused r
    else .next s

/-- "if run_state = Running: run_state <- Stopped" (R251); a crash stops the machine before that line. -/
def State.endBatch (s : State) : State :=
  if s.runState = .running ∧ s.crashed = false then { s with runState := .stopped } else s

/-- `execute(n)` (60_exceptions R251). Ended and Aborted refuse to run and Quitting is a no-op: no step, no change (93
U12, U13). -/
def execute (n : Nat) (s : State) : Result :=
  if s.crashed then .fault .crashed
  else if s.runState.canRun then
    match batch n { s with runState := .running } with
    | .next t => .next t.endBatch
    | .fault f => .fault f
    | .refused r => .refused r
  else .next s

/-- `quit()` (60_exceptions R252): Quitting unless already Aborted. -/
def quit (s : State) : Result :=
  if s.crashed then .fault .crashed
  else .next (if s.runState = .aborted then s else { s with runState := .quitting })

/-- `is_bad_status()` (60_exceptions R253): true only for Aborted. -/
def isBadStatus (s : State) : Except Fault Bool :=
  if s.crashed then .error .crashed else .ok (decide (s.runState = .aborted))

/-- The explicit reset as a host operation (70_reset_and_hazards R304); it does not revive a crashed machine (log 9). -/
def hostReset (s : State) : Result :=
  if s.crashed then .fault .crashed else .next s.explicitReset

/-- Reading a register (60_exceptions R271); no side effect. -/
def inspectReg (s : State) (i : Reg) : Except Fault Word :=
  if s.crashed then .error .crashed else .ok (s.readReg i)

/-- Reading a register by name (60_exceptions R271, 10_state R26); none for NotFound. -/
def inspectName (s : State) (name : String) : Except Fault (Option Word) :=
  if s.crashed then .error .crashed else .ok ((indexOf name).map s.readReg)

/-- Reading the run state (60_exceptions R270). -/
def inspectRunState (s : State) : Except Fault RunState :=
  if s.crashed then .error .crashed else .ok s.runState

/-- `get_pc()` (10_state R29). -/
def inspectPc (s : State) : Except Fault Word :=
  if s.crashed then .error .crashed else .ok s.pc

/-- The words of `examine`, from `a` up, and the machine after it: the first address outside memory crashes it
(60_exceptions R272, 20_memory R69). -/
def examineFrom : Nat → Word → State → State × List Word
  | 0, _, s => (s, [])
  | n + 1, a, s =>
    match s.memRead a 4 with
    | .error f => (s.takeTrap (.fatal f), [])
    | .ok v =>
      let r := examineFrom n (a + 4#32) s
      (r.1, BitVec.ofNat 32 v :: r.2)

/-- `examine n addr` (60_exceptions R272): `n` consecutive 4-byte words. -/
def examine (n : Nat) (a : Word) (s : State) : Except Fault (State × List Word) :=
  if s.crashed then .error .crashed else .ok (examineFrom n a s)

end Sys2Proof.Machine
end

