-- ==== Sys2Proof/Machine/Debugger.lean ====
section
/-! DEFINITION. The debugger that drives the block (60_exceptions R270 to R278): a layer ABOVE State. 00_scope R5(a) puts
it outside the hardware; it is modelled so that what the host does between batches is said in the same terms. Nothing in
the machine depends on this file. Text output is left out (00_scope R5(b)); a command's answer is a value. -/

namespace Sys2Proof.Machine

/-! ## Tokens (R276) -/

/-- The token kinds of R276. Number values are Words (R277). -/
inductive Token where
  | plus | minus | star | slash | eq | land | lparen | rparen
  /-- `$name`. -/
  | register (name : String)
  | hex (v : Word)
  | dec (v : Word)
deriving DecidableEq, Repr

/-- The value of a digit, 16 for a character that is none. -/
def digitValue (c : Char) : Nat :=
  if '0' ≤ c ∧ c ≤ '9' then c.toNat - '0'.toNat
  else if 'a' ≤ c ∧ c ≤ 'f' then c.toNat - 'a'.toNat + 10
  else if 'A' ≤ c ∧ c ≤ 'F' then c.toNat - 'A'.toNat + 10
  else 16

def isDec (c : Char) : Bool := decide (digitValue c < 10)
def isHex (c : Char) : Bool := decide (digitValue c < 16)
def isSpace (c : Char) : Bool := c == ' ' || c == '\t' || c == '\n' || c == '\r'
def isName (c : Char) : Bool := isDec c || decide ('a' ≤ c ∧ c ≤ 'z') || decide ('A' ≤ c ∧ c ≤ 'Z')

/-- The number that digits stand for. -/
def digitsValue (base : Nat) (ds : List Char) : Nat := ds.foldl (fun n c => n * base + digitValue c) 0

/-- The Word that digits stand for, modulo 2^32 (log 13). -/
def numeral (base : Nat) (ds : List Char) : Word := BitVec.ofNat 32 (digitsValue base ds)

/-- One lexical rule applied at the head of a non-empty text, in the priority order of R276: the token (none for
whitespace) and the text after it; `none` if no rule matches. Names are letters and digits (log 13). -/
def lexOne : List Char → Option (Option Token × List Char)
  | [] => none
  | c :: cs =>
    if isSpace c then some (none, cs)
    else if c == '+' then some (some .plus, cs)
    else if c == '-' then some (some .minus, cs)
    else if c == '*' then some (some .star, cs)
    else if c == '/' then some (some .slash, cs)
    else if c == '=' && cs.head? == some '=' then some (some .eq, cs.tail)
    else if c == '&' && cs.head? == some '&' then some (some .land, cs.tail)
    else if c == '(' then some (some .lparen, cs)
    else if c == ')' then some (some .rparen, cs)
    else if c == '$' && cs.head?.any isName then
      some (some (.register (String.ofList (cs.takeWhile isName))), cs.dropWhile isName)
    else if c == '0' && cs.head? == some 'x' && cs.tail.head?.any isHex then
      some (some (.hex (numeral 16 (cs.tail.takeWhile isHex))), cs.tail.dropWhile isHex)
    else if isDec c then some (some (.dec (numeral 10 (c :: cs.takeWhile isDec))), cs.dropWhile isDec)
    else none

/-- The token sequence of a text; `none` if no rule matches somewhere. Every rule consumes a character, so the text's
length is fuel enough. -/
def lexFrom : Nat → List Char → Option (List Token)
  | _, [] => some []
  | 0, _ :: _ => none
  | k + 1, c :: cs =>
    match lexOne (c :: cs) with
    | none => none
    | some (none, rest) => lexFrom k rest
    | some (some t, rest) => (lexFrom k rest).map (t :: ·)

/-- Tokenization of an expression's text (R276). -/
def tokenize (text : String) : Option (List Token) := lexFrom text.toList.length text.toList

/-! ## Evaluation (R277) -/

/-- What an evaluation ends in: a value, `success = false`, or a memory access that crashes the machine (R272). -/
inductive Eval where
  | value (v : Word)
  | failed
  | crashes (f : Fault)
deriving DecidableEq, Repr

/-- The open choices of a host, parameters and never chosen here (log 17). -/
structure HostChoices where
  /-- Whether a `*` after a register or a hexadecimal literal is binary (93 U10). -/
  starAfterRegHexIsBinary : Bool
  /-- Whether `continue` goes on after a watchpoint whose expression fails (93 U20). -/
  continueAfterFailure    : Bool
  /-- Whether the debugger is built with watchpoint checking (R273). -/
  watchpointChecking      : Bool
deriving DecidableEq, Repr

/-- Whether the tokens are one parenthesized range: the bracket opened by the first token is closed by the last. -/
def closesAtEnd : List Token → Nat → Bool
  | [], _ => false
  | [t], d => decide (t = .rparen ∧ d = 1)
  | .lparen :: ts, d => closesAtEnd ts (d + 1)
  | .rparen :: ts, d => decide (1 < d) && closesAtEnd ts (d - 1)
  | _ :: ts, d => closesAtEnd ts d

/-- The binary precedence tiers of R277; `none` for a token that is no operator. -/
def tierOf : Token → Option Nat
  | .eq | .land => some 0
  | .plus | .minus => some 1
  | .star | .slash => some 2
  | .lparen | .rparen | .register _ | .hex _ | .dec _ => none

/-- Whether an operator after the token `prev` (none at the start) is unary (R277). -/
def isUnary (h : HostChoices) (prev : Option Token) (t : Token) : Bool :=
  match t, prev with
  | .plus, some (.dec _) | .plus, some (.hex _) | .plus, some (.register _) | .plus, some .rparen => false
  | .minus, some (.dec _) | .minus, some (.hex _) | .minus, some (.register _) | .minus, some .rparen => false
  | .star, some (.dec _) | .star, some .rparen => false
  | .star, some (.hex _) | .star, some (.register _) => !h.starAfterRegHexIsBinary
  | .plus, _ | .minus, _ | .star, _ => true
  | _, _ => false

/-- The scan for the dominant operator (R277): the index of the last depth-0 binary operator of the lowest tier. `best`
is the tier and index found so far, `k` the index of the head token. -/
def dominantFrom (h : HostChoices) : List Token → Option Token → Int → Nat → Option (Nat × Nat) → Option (Nat × Nat)
  | [], _, _, _, best => best
  | t :: ts, prev, depth, k, best =>
    let depth' : Int := if t = .lparen then depth + 1 else if t = .rparen then depth - 1 else depth
    let best' : Option (Nat × Nat) :=
      match tierOf t with
      | none => best
      | some tier =>
        if depth = 0 ∧ isUnary h prev t = false ∧ best.all (fun b => decide (tier ≤ b.1)) = true then some (tier, k) else best
    dominantFrom h ts (some t) depth' (k + 1) best'

/-- A binary operator applied to two Words (R277); division by zero fails the evaluation (90_conflicts C11). -/
def applyBinary : Token → Word → Word → Eval
  | .plus, a, b => .value (a + b)
  | .minus, a, b => .value (a - b)
  | .star, a, b => .value (a * b)
  | .slash, a, b => if b = 0#32 then .failed else .value (a / b)
  | .eq, a, b => .value (if a = b then 1#32 else 0#32)
  | .land, a, b => .value (if a ≠ 0#32 ∧ b ≠ 0#32 then 1#32 else 0#32)
  | _, _, _ => .failed

/-- The unary operators (R277): `+` forwards, `-` negates, `*` reads the 4 bytes at the address. -/
def applyUnary (s : State) : Token → Word → Eval
  | .plus, v => .value v
  | .minus, v => .value (-v)
  | .star, v =>
    match s.memRead v 4 with
    | .ok w => .value (BitVec.ofNat 32 w)
    | .error f => .crashes f
  | _, _ => .failed

/-- A single token: a literal, a register by name, or a failure (R277). -/
def evalToken (s : State) : Token → Eval
  | .hex v | .dec v => .value v
  | .register name => match indexOf name with | some i => .value (s.readReg i) | none => .failed
  | _ => .failed

/-- Recursive evaluation over a token range (R277). Every call is on a shorter list, so the length is fuel enough. The
left side is evaluated first and its failure ends the evaluation (log 14). -/
def evalRange (h : HostChoices) (s : State) : Nat → List Token → Eval
  | 0, _ => .failed
  | _ + 1, [] => .failed
  | _ + 1, [t] => evalToken s t
  | k + 1, t :: ts =>
    if t = .lparen ∧ closesAtEnd ts 1 = true then evalRange h s k ts.dropLast
    else
      match dominantFrom h (t :: ts) none 0 0 none with
      | some (_, i) =>
        match evalRange h s k ((t :: ts).take i) with
        | .value a =>
          match evalRange h s k ((t :: ts).drop (i + 1)) with
          | .value b => applyBinary ((t :: ts).getD i .rparen) a b
          | .failed => .failed
          | .crashes f => .crashes f
        | .failed => .failed
        | .crashes f => .crashes f
      | none =>
        if isUnary h none t then
          match evalRange h s k ts with
          | .value v => applyUnary s t v
          | .failed => .failed
          | .crashes f => .crashes f
        else .failed

/-- `evaluate(text)` (R277). -/
def evaluate (h : HostChoices) (s : State) (text : String) : Eval :=
  match tokenize text with
  | none => .failed
  | some ts => evalRange h s (ts.length + 1) ts

/-! ## Watchpoints (R274, R275) -/

/-- A watchpoint in a slot of the pool. -/
structure Watchpoint where
  slot : Nat
  text : String
  last : Word
deriving DecidableEq, Repr

/-- The pool of 32 slots: the free-list and the used-list, the used one in order of creation (R275). -/
structure WatchPool where
  free : List Nat
  used : List Watchpoint
deriving DecidableEq, Repr

/-- The pool when the debugger starts: every slot free. -/
def WatchPool.empty : WatchPool := { free := List.range 32, used := [] }

/-- A debugging session: the block and the host's pool. -/
structure Session where
  machine : State
  pool    : WatchPool
deriving DecidableEq, Repr

/-- What a command reports. -/
inductive Report where
  | done
  | value (v : Word)
  | words (vs : List Word)
  /-- `watch` filled this slot. -/
  | watching (slot : Nat)
  /-- A watchpoint's value changed. -/
  | changed (slot : Nat) (old new : Word)
  /-- "invalid expression", an exhausted pool, an unknown id: a diagnostic; the session goes on. -/
  | diagnostic
  /-- The access of an expression or of `examine` crashed the machine (R272). -/
  | crashed
deriving DecidableEq, Repr

/-- A crash met while the host inspects memory. -/
def Session.crash (c : Session) (f : Fault) : Session := { c with machine := c.machine.takeTrap (.fatal f) }

/-- `watch expr` (R275): evaluate once, take a slot from the free-list, append to the used-list. -/
def watch (h : HostChoices) (text : String) (c : Session) : Session × Report :=
  match evaluate h c.machine text with
  | .failed => (c, .diagnostic)
  | .crashes f => (c.crash f, .crashed)
  | .value v =>
    match c.pool.free with
    | [] => (c, .diagnostic)
    | k :: ks => ({ c with pool := { free := ks, used := c.pool.used ++ [⟨k, text, v⟩] } }, .watching k)

/-- `delete id` (R275): an id that is in use moves to the free-list (to its end: log 15). -/
def unwatch (id : Nat) (c : Session) : Session × Report :=
  if c.pool.used.any (fun w => w.slot == id) then
    ({ c with pool := { free := c.pool.free ++ [id], used := c.pool.used.filter (fun w => w.slot != id) } }, .done)
  else (c, .diagnostic)

/-- The re-check of the used watchpoints, oldest first (R274): the first changed value is stored and ends the check, a
failing evaluation aborts it. `seen` holds the watchpoints already checked. -/
def checkWatches (h : HostChoices) (s : State) : List Watchpoint → List Watchpoint → List Watchpoint × Report ⊕ Fault
  | seen, [] => .inl (seen, .done)
  | seen, w :: ws =>
    match evaluate h s w.text with
    | .failed => .inl (seen ++ w :: ws, .diagnostic)
    | .crashes f => .inr f
    | .value v =>
      if v = w.last then checkWatches h s (seen ++ [w]) ws
      else .inl (seen ++ { w with last := v } :: ws, .changed w.slot w.last v)

/-- The watchpoint check after a single step of `continue` (R274). "Transition Monitor to Stopped" changes nothing: after
a step that returned Continue the block is Stopped already (R250), and after one that trapped it stays Ended or Aborted
(the model's choice: log 16). -/
def watchCheck (h : HostChoices) (c : Session) : Session × Report :=
  match checkWatches h c.machine [] c.pool.used with
  | .inl (used, r) => ({ c with pool := { c.pool with used := used } }, r)
  | .inr f => (c.crash f, .crashed)

/-- A Monitor operation inside a session. -/
def Session.ofResult (c : Session) : Result → Session × Report
  | .next s => ({ c with machine := s }, if s.crashed then .crashed else .done)
  | .fault _ => (c, .crashed)
  | .refused _ => (c, .diagnostic)

/-- An answer of one report. -/
def alone (r : Session × Report) : Session × List Report := (r.1, [r.2])

/-- `continue` of a debugger built with watchpoint checking, for at most `n` steps (R273): single steps with a check after
each one that did not crash, a step that trapped too (R274; R250 lists the check from Stopped only: log 16), until a
trap, a crash, a changed value, or, as the host chooses (93 U20), a failing expression. The answer is everything
reported on the way, oldest first: an error for every check that a failing expression aborted, then how it ended. A
machine that refuses to run takes no step and so meets no check. -/
def continueFor (h : HostChoices) : Nat → Session → Session × List Report
  | 0, c => (c, [.done])
  | n + 1, c =>
    if c.machine.runState.canRun then
      match execute 1 c.machine with
      | .next s =>
        let c' : Session := { c with machine := s }
        if s.crashed then (c', [.crashed])
        else
          match watchCheck h c' with
          | (d, .done) => if s.runState = .stopped then continueFor h n d else (d, [.done])
          | (d, .diagnostic) =>
            if h.continueAfterFailure ∧ s.runState = .stopped then
              let q := continueFor h n d
              (q.1, .diagnostic :: q.2)
            else (d, [.diagnostic])
          | (d, r) => (d, [r])
      | .fault _ => (c, [.crashed])
      | .refused _ => (c, [.diagnostic])
    else (c, [.done])

/-- `continue`, for at most `n` steps (R273, D25): built without watchpoint checking it is `execute`. -/
def continueCommand (h : HostChoices) (n : Nat) (c : Session) : Session × List Report :=
  if h.watchpointChecking then continueFor h n c else alone (c.ofResult (execute n c.machine))

/-! ## Commands (R278) -/

/-- The commands of R278 with their arguments; `info` and `help` only print (91 N15). -/
inductive Command where
  /-- `continue`, with the number of steps the host waits for (D25). -/
  | cont (n : Nat)
  | step
  | examine (n : Nat) (expr : String)
  | print (expr : String)
  | quit
  | watch (expr : String)
  | delete (id : Nat)
  | info
  | help
  /-- A name outside the command table: an error report (R278). -/
  | unrecognized
  /-- A wrong argument count or type: a diagnostic (R278). -/
  | misused
deriving DecidableEq, Repr

/-- `print expr` (R278). -/
def printExpr (h : HostChoices) (expr : String) (c : Session) : Session × Report :=
  match evaluate h c.machine expr with
  | .value v => (c, .value v)
  | .failed => (c, .diagnostic)
  | .crashes f => (c.crash f, .crashed)

/-- `examine n addr-expr` (R272). -/
def examineExpr (h : HostChoices) (n : Nat) (expr : String) (c : Session) : Session × Report :=
  match evaluate h c.machine expr with
  | .value a =>
    let r := examineFrom n a c.machine
    ({ c with machine := r.1 }, if r.1.crashed then .crashed else .words r.2)
  | .failed => (c, .diagnostic)
  | .crashes f => (c.crash f, .crashed)

/-- One command run to completion (R270, R278), and what it reports, oldest first. Nothing is defined on a crashed machine
(R246). -/
def runCommand (h : HostChoices) (cmd : Command) (c : Session) : Session × List Report :=
  if c.machine.crashed then (c, [.crashed])
  else
    match cmd with
    | .cont n => continueCommand h n c
    | .step => alone (c.ofResult (execute 1 c.machine))
    | .examine n expr => alone (examineExpr h n expr c)
    | .print expr => alone (printExpr h expr c)
    | .quit => alone (c.ofResult (quit c.machine))
    | .watch expr => alone (Sys2Proof.Machine.watch h expr c)
    | .delete id => alone (unwatch id c)
    | .info | .help => (c, [.done])
    | .unrecognized | .misused => (c, [.diagnostic])

/-! ## The command line (R278) -/

/-- The first word of a text, and the text after it and after the whitespace that follows. -/
def splitWord (cs : List Char) : List Char × List Char :=
  let cs := cs.dropWhile isSpace
  (cs.takeWhile (fun c => !isSpace c), (cs.dropWhile (fun c => !isSpace c)).dropWhile isSpace)

/-- A count or an id: a word of decimal digits (log 18). -/
def readCount (ds : List Char) : Option Nat :=
  if !ds.isEmpty && ds.all isDec then some (digitsValue 10 ds) else none

/-- The arguments of a command that takes none. -/
def noArgument (cmd : Command) (rest : List Char) : Option Command := if rest.isEmpty then some cmd else none

/-- An expression: the rest of the line, not empty. -/
def exprArgument (mk : String → Command) (rest : List Char) : Option Command :=
  if rest.isEmpty then none else some (mk (String.ofList rest))

/-- The arguments of `examine`: a count, then an expression. -/
def examineArguments (rest : List Char) : Option Command :=
  match readCount (splitWord rest).1 with
  | some n => exprArgument (Command.examine n) (splitWord rest).2
  | none => none

/-- The argument of `delete`: one id. -/
def deleteArgument (rest : List Char) : Option Command :=
  match readCount (splitWord rest).1 with
  | some id => noArgument (.delete id) (splitWord rest).2
  | none => none

/-- The fixed table from command names to what reads their arguments; `none` for a wrong argument count or type (R278).
`budget` is the number of steps `continue` waits for (D25). What `info` and `help` take the spec does not say: any
arguments (log 18). -/
def commandTable (budget : Nat) : List (String × (List Char → Option Command)) :=
  [("continue", noArgument (.cont budget)), ("info", fun _ => some .info), ("step", noArgument .step),
   ("examine", examineArguments), ("print", exprArgument .print), ("quit", noArgument .quit),
   ("watch", exprArgument .watch), ("delete", deleteArgument), ("help", fun _ => some .help)]

/-- A line read as a command: the first word looked up in the table, its arguments read. -/
def readCommand (budget : Nat) (line : String) : Command :=
  match (commandTable budget).lookup (String.ofList (splitWord line.toList).1) with
  | some read => (read (splitWord line.toList).2).getD .misused
  | none => .unrecognized

/-- What the command line gives the debugger. -/
inductive Input where
  | line (text : String)
  | eof
deriving DecidableEq, Repr

/-- The command loop (R270, R278): each command runs to completion before the next line is read; the answer is what the
commands reported, in order. EOF ends the session and
touches nothing, `quit` ends it after `quit()`, and so does a crash (log 18). -/
def runSession (h : HostChoices) (budget : Nat) : List Input → Session → Session × List Report
  | [], c => (c, [])
  | .eof :: _, c => (c, [])
  | .line text :: rest, c =>
    let cmd := readCommand budget text
    let r := runCommand h cmd c
    if cmd = .quit ∨ r.1.machine.crashed then r
    else
      let q := runSession h budget rest r.1
      (q.1, r.2 ++ q.2)

end Sys2Proof.Machine
end

