-- ==== Sys2Proof/Machine/Launch.lean ====
section
/-! DEFINITION. How a machine comes to exist (70_reset_and_hazards R301): memory filled, registers given, an image
loaded, reset. The filler and the start registers are free inputs (20_memory R61, 10_state R40). -/

namespace Sys2Proof.Machine

/-- The canonical memory that holds `filler a` at each of the `n` addresses from `a` up (20_memory R61). -/
def Memory.fill (filler : Nat → Byte) : Nat → Nat → Memory
  | _, 0 => []
  | a, n + 1 =>
    if filler a = Config.unlistedByte then Memory.fill filler (a + 1) n
    else (a, filler a) :: Memory.fill filler (a + 1) n

/-- `load_image(bytes)`: byte i at MBASE + i; refused if the image exceeds memory (20_memory R62). -/
def State.loadImage (s : State) (image : List Byte) : Result :=
  if s.crashed then .fault .crashed
  else if s.params.memSize < image.length then .refused .imageTooLarge
  else .next { s with mem := s.mem.writeBytes s.params.memBase.toNat image }

/-- The built-in image (70_reset_and_hazards R302; words 2, 3 and 5 are the spec's reconstruction: log 12). -/
def builtInImage : List Byte :=
  bytesOfWord 0x00000297#32 ++ bytesOfWord 0x00028823#32 ++ bytesOfWord 0x0102C503#32 ++
  bytesOfWord 0x00100073#32 ++ bytesOfWord 0xDEADBEEF#32

/-- The machine before its image is loaded: filled memory, x[1..31] as given, x[0] zero. -/
def filledState (p : Params) (filler : Nat → Byte) (regs0 : Vector Word 31) : State :=
  { regs := #v[0#32] ++ regs0
    pc := p.memBase
    mem := Memory.fill filler p.memBase.toNat p.memSize
    runState := .stopped
    icount := 0
    crashed := false
    params := p }

/-- The start-up sequence (70_reset_and_hazards R301). No image given means the built-in one; parameters out of the
constraints of 00_scope R6 and an image longer than memory are refused: no machine exists. -/
def start (p : Params) (image : Option (List Byte)) (filler : Nat → Byte) (regs0 : Vector Word 31) : Result :=
  if p.wf = false then .refused .launchParameters
  else
    match (filledState p filler regs0).loadImage (image.getD builtInImage) with
    | .next t => .next t.explicitReset
    | .fault f => .fault f
    | .refused r => .refused r

end Sys2Proof.Machine
end

