-- ==== Sys2Proof/Safety.lean ====
section
/-! DEFINITION. The terms that claims use: what a step leaves unchanged, which registers and bytes an instruction may
change, the invariant of the machine, and when a run counts as good. -/

namespace Sys2Proof.Machine

/-! ## Frames -/

/-- Every byte of memory reads as before. -/
def SameMemory (s t : State) : Prop := ∀ a : Nat, t.mem.read a = s.mem.read a

/-- Every register reads as before. -/
def SameRegs (s t : State) : Prop := ∀ j : Reg, t.readReg j = s.readReg j

/-- The Monitor's state and the parameters are as before. -/
def SameMonitor (s t : State) : Prop :=
  t.runState = s.runState ∧ t.icount = s.icount ∧ t.crashed = s.crashed ∧ t.params = s.params

/-- `x[rd]` is `v` if rd is not x0, every other register reads as before; for rd = x0 nothing is written
(10_state R23). -/
def RegWritten (s t : State) (rd : Reg) (v : Word) : Prop :=
  ∀ j : Reg, t.readReg j = if j = rd ∧ rd ≠ 0#5 then v else s.readReg j

/-- What an instruction with a destination register and no store does, and all it does. -/
def Retired (s t : State) (rd : Reg) (v nextPc : Word) : Prop :=
  RegWritten s t rd v ∧ t.pc = nextPc ∧ SameMemory s t ∧ SameMonitor s t

/-- What a branch does, and all it does. -/
def Jumped (s t : State) (nextPc : Word) : Prop :=
  SameRegs s t ∧ t.pc = nextPc ∧ SameMemory s t ∧ SameMonitor s t

/-- What a store of the low `n` bytes of `v` at `a` does, and all it does: byte i of the value at a + i, every address
outside a, …, a + n - 1 reads as before. -/
def Stored (s t : State) (a : Word) (n : Nat) (v : Word) : Prop :=
  (∀ i, i < n → t.mem.read (a.toNat + i) = v.extractLsb' (8 * i) 8) ∧
  (∀ b : Nat, b < a.toNat ∨ a.toNat + n ≤ b → t.mem.read b = s.mem.read b) ∧
  SameRegs s t ∧ t.pc = s.pc + 4#32 ∧ SameMonitor s t

/-- The register an instruction names as its destination (10_state R23: all but the stores, the branches and ebreak). -/
def destOf : Instr → Option Reg
  | .lui rd _ | .auipc rd _ | .jal rd _ => some rd
  | .jalr rd _ _ => some rd
  | .beq _ _ _ | .bne _ _ _ | .blt _ _ _ | .bge _ _ _ | .bltu _ _ _ | .bgeu _ _ _ => none
  | .lb rd _ _ | .lh rd _ _ | .lw rd _ _ | .lbu rd _ _ | .lhu rd _ _ => some rd
  | .sb _ _ _ | .sh _ _ _ | .sw _ _ _ => none
  | .addi rd _ _ | .slti rd _ _ | .sltiu rd _ _ | .xori rd _ _ | .ori rd _ _ | .andi rd _ _ => some rd
  | .slli rd _ _ | .srli rd _ _ | .srai rd _ _ => some rd
  | .add rd _ _ | .sub rd _ _ | .sll rd _ _ | .slt rd _ _ | .sltu rd _ _ => some rd
  | .xor rd _ _ | .srl rd _ _ | .sra rd _ _ | .or rd _ _ | .and rd _ _ => some rd
  | .mul rd _ _ | .mulh rd _ _ | .mulhsu rd _ _ | .mulhu rd _ _ => some rd
  | .div rd _ _ | .divu rd _ _ | .rem rd _ _ | .remu rd _ _ => some rd
  | .ebreak => none

/-- The address and the number of bytes an instruction stores to in state `s` (43_load_store R180, R186 to R188). -/
def storesTo (s : State) : Instr → Option (Word × Nat)
  | .sb rs1 _ imm => some (s.effAddr rs1 imm, 1)
  | .sh rs1 _ imm => some (s.effAddr rs1 imm, 2)
  | .sw rs1 _ imm => some (s.effAddr rs1 imm, 4)
  | .lui _ _ | .auipc _ _ | .jal _ _ => none
  | .jalr _ _ _ => none
  | .beq _ _ _ | .bne _ _ _ | .blt _ _ _ | .bge _ _ _ | .bltu _ _ _ | .bgeu _ _ _ => none
  | .lb _ _ _ | .lh _ _ _ | .lw _ _ _ | .lbu _ _ _ | .lhu _ _ _ => none
  | .addi _ _ _ | .slti _ _ _ | .sltiu _ _ _ | .xori _ _ _ | .ori _ _ _ | .andi _ _ _ => none
  | .slli _ _ _ | .srli _ _ _ | .srai _ _ _ => none
  | .add _ _ _ | .sub _ _ _ | .sll _ _ _ | .slt _ _ _ | .sltu _ _ _ => none
  | .xor _ _ _ | .srl _ _ _ | .sra _ _ _ | .or _ _ _ | .and _ _ _ => none
  | .mul _ _ _ | .mulh _ _ _ | .mulhsu _ _ _ | .mulhu _ _ _ => none
  | .div _ _ _ | .divu _ _ _ | .rem _ _ _ | .remu _ _ _ => none
  | .ebreak => none

/-! ## Encodings -/

/-- Every word with this opcode is the instruction that `mk` reads from its fields. -/
def EncodedByOpcode (op : BitVec 7) (mk : Word → Instr) : Prop :=
  ∀ w : Word, opcodeOf w = op → decode w = .ok (mk w)

/-- Every word with this opcode and funct3 is the instruction that `mk` reads from its fields. -/
def EncodedByFunct3 (op : BitVec 7) (funct3 : BitVec 3) (mk : Word → Instr) : Prop :=
  ∀ w : Word, opcodeOf w = op → funct3Of w = funct3 → decode w = .ok (mk w)

/-- Every word with this opcode, funct3 and funct7 is the instruction that `mk` reads from its fields. -/
def EncodedByFunct7 (op : BitVec 7) (funct3 : BitVec 3) (funct7 : BitVec 7) (mk : Word → Instr) : Prop :=
  ∀ w : Word, opcodeOf w = op → funct3Of w = funct3 → funct7Of w = funct7 → decode w = .ok (mk w)

/-! ## The invariant -/

/-- What every launch establishes and every step keeps: x[0] holds zero, memory is canonical and lists only bytes that
exist, the parameters are legal (10_state R24; 20_memory R51; 00_scope R6). -/
structure State.Sound (s : State) : Prop where
  regZero   : s.regs[0] = 0#32
  memCanon  : s.mem.wf = true
  memInside : ∀ c ∈ s.mem, InRange s.params c.1 1
  params    : s.params.wf = true

/-- The invariant of a machine whose reset pc is even: sound, and the pc is even (10_state R28). -/
structure State.Inv (s : State) : Prop where
  sound  : s.Sound
  pcEven : s.pc.toNat % 2 = 0

/-! ## Verdicts -/

/-- A step can run: the machine lives and its run state lets `execute` run (60_exceptions R246, R251). -/
def State.canStep (s : State) : Prop := s.crashed = false ∧ s.runState.canRun = true

/-- A run's verdict is good: not crashed and not Aborted (60_exceptions R253). -/
def State.good (s : State) : Prop := s.crashed = false ∧ s.runState ≠ .aborted

/-- A program succeeded: Ended, and not crashed (70_reset_and_hazards R306). -/
def State.succeeded (s : State) : Prop := s.crashed = false ∧ s.runState = .ended

end Sys2Proof.Machine
end

