-- ==== Sys2Proof/Certificates/Slice0/Obligations.lean ====
section
/-! DEFINITION. The statements for the provers. Each docstring names the rule of spec/ that the statement formalises.
Where a statement has the premise that memory is canonical (`s.mem.wf`), StepKeepsTheInvariant keeps that form along
every run and StartUpMeetsTheInvariant establishes it. -/

open Sys2Proof Sys2Proof.Machine

/-! ## Reset and start-up -/

/-- 70_reset_and_hazards R300: reset writes the pc and x[0], no other register, no byte of memory, nothing of the
Monitor's; with legal parameters the sum does not wrap and the first fetch is in range. -/
def Obligations.ResetWritesPcAndRegisterZeroOnly : Prop :=
  ∀ s : State,
    s.resetCore.pc = s.params.memBase + BitVec.ofNat 32 s.params.resetOffset ∧
    s.resetCore.regs[0] = 0#32 ∧
    (∀ (k : Nat) (h : k < 32), k ≠ 0 → s.resetCore.regs[k] = s.regs[k]) ∧
    SameMemory s s.resetCore ∧ SameMonitor s s.resetCore ∧
    (s.params.wf = true →
      s.resetCore.pc.toNat = s.params.memBase.toNat + s.params.resetOffset ∧
      InRange s.params s.resetCore.pc.toNat 4)

/-- The state that the host's interface calls reset meets the invariant. -/
def Obligations.ResetStateMeetsTheInvariant : Prop := State.reset.Inv

/-- 10_state R40: the state after the start-up sequence of R301, for every legal choice of parameters, every image that
fits, every filler and all start values of x[1] to x[31] (Stopped, counter 0 and the arbitrary x[1] to x[31] are the spec's decisions D15 and D16:
log 6). -/
def Obligations.StartUpGivesTheResetValues : Prop :=
  ∀ (p : Params) (image : List Byte) (filler : Nat → Byte) (regs0 : Vector Word 31),
    p.wf = true → image.length ≤ p.memSize →
    ∃ t, start p (some image) filler regs0 = .next t ∧
      t.readReg 0#5 = 0#32 ∧
      (∀ (k : Nat) (h : k < 31), t.readReg (BitVec.ofNat 5 (k + 1)) = regs0[k]) ∧
      t.pc = p.memBase + BitVec.ofNat 32 p.resetOffset ∧
      (∀ (k : Nat) (h : k < image.length), t.mem.read (p.memBase.toNat + k) = image[k]) ∧
      (∀ a : Nat, p.memBase.toNat + image.length ≤ a → a < p.memBase.toNat + p.memSize → t.mem.read a = filler a) ∧
      t.runState = .stopped ∧ t.icount = 0 ∧ t.crashed = false ∧ t.params = p

/-- 70_reset_and_hazards R301, R302, 20_memory R62: illegal parameters and an image longer than memory give no machine;
without an image the built-in one is loaded, which always fits (the spec's decisions D30 and D31: log 6). -/
def Obligations.StartUpRefusesBadLaunches : Prop :=
  ∀ (p : Params) (filler : Nat → Byte) (regs0 : Vector Word 31),
    (p.wf = false → ∀ image, start p image filler regs0 = .refused .launchParameters) ∧
    (p.wf = true → ∀ image : List Byte, p.memSize < image.length →
      start p (some image) filler regs0 = .refused .imageTooLarge) ∧
    (p.wf = true → ∃ t, start p none filler regs0 = .next t ∧ start p (some builtInImage) filler regs0 = .next t)

/-- Every launch is sound (x[0] zero, memory canonical and inside the range, legal parameters), and one whose reset pc is
even meets the invariant that steps keep (the invariant is the model's: 10_state R24, R28, 20_memory R51, 00_scope R6). -/
def Obligations.StartUpMeetsTheInvariant : Prop :=
  ∀ (p : Params) (image : Option (List Byte)) (filler : Nat → Byte) (regs0 : Vector Word 31) (t : State),
    start p image filler regs0 = .next t →
    t.Sound ∧ ((p.memBase.toNat + p.resetOffset) % 2 = 0 → t.Inv)

/-- 70_reset_and_hazards R304: the explicit reset is R300's, then Stopped and counter 0; memory and x[1] to x[31] stay,
`crashed` is not cleared (the spec's decision D17: log 6). -/
def Obligations.ExplicitResetKeepsRegistersAndMemory : Prop :=
  ∀ s : State,
    s.explicitReset.pc = s.params.memBase + BitVec.ofNat 32 s.params.resetOffset ∧
    s.explicitReset.regs[0] = 0#32 ∧
    (∀ (k : Nat) (h : k < 32), k ≠ 0 → s.explicitReset.regs[k] = s.regs[k]) ∧
    SameMemory s s.explicitReset ∧
    s.explicitReset.runState = .stopped ∧ s.explicitReset.icount = 0 ∧ s.explicitReset.crashed = s.crashed ∧
    s.explicitReset.params = s.params

/-- 60_exceptions R246, 93 U7: on a crashed machine no step and no host operation is defined; the model stops each of
them with `Fault.crashed` (the model's reading of "a model refuses them": log 9). -/
def Obligations.CrashedMachineDefinesNoOperation : Prop :=
  ∀ s : State, s.crashed = true →
    step s = .fault .crashed ∧ (∀ n, execute n s = .fault .crashed) ∧ quit s = .fault .crashed ∧
    hostReset s = .fault .crashed ∧ (∀ image, s.loadImage image = .fault .crashed) ∧
    isBadStatus s = .error .crashed ∧ (∀ i, inspectReg s i = .error .crashed) ∧ inspectPc s = .error .crashed ∧
    inspectRunState s = .error .crashed ∧
    (∀ name, inspectName s name = .error .crashed) ∧ (∀ n a, examine n a s = .error .crashed)

/-! ## The memory unit -/

/-- 20_memory R54: the length check, the bounds check, then the little-endian sum of the bytes. -/
def Obligations.MemReadIsTheLittleEndianSum : Prop :=
  ∀ (s : State) (a : Word) (n : Nat),
    (¬ (n = 1 ∨ n = 2 ∨ n = 4 ∨ n = 8) → s.memRead a n = .error (.lenFault n)) ∧
    ((n = 1 ∨ n = 2 ∨ n = 4 ∨ n = 8) → ¬ InRange s.params a.toNat n → s.memRead a n = .error (.memFault a n)) ∧
    ((n = 1 ∨ n = 2 ∨ n = 4 ∨ n = 8) → InRange s.params a.toNat n →
      s.memRead a n = .ok (∑ k ∈ Finset.range n, (s.mem.read (a.toNat + k)).toNat * 2 ^ (8 * k)))

/-- 20_memory R55: the two checks; then byte k of the value at a + k, no other byte, nothing else. -/
def Obligations.MemWriteStoresTheLowBytes : Prop :=
  ∀ (s : State) (a : Word) (n v : Nat), s.mem.wf = true →
    (¬ (n = 1 ∨ n = 2 ∨ n = 4 ∨ n = 8) → s.memWrite a n v = .error (.lenFault n)) ∧
    ((n = 1 ∨ n = 2 ∨ n = 4 ∨ n = 8) → ¬ InRange s.params a.toNat n → s.memWrite a n v = .error (.memFault a n)) ∧
    ((n = 1 ∨ n = 2 ∨ n = 4 ∨ n = 8) → InRange s.params a.toNat n →
      ∃ t, s.memWrite a n v = .ok t ∧
        (∀ k, k < n → (t.mem.read (a.toNat + k)).toNat = v / 2 ^ (8 * k) % 2 ^ 8) ∧
        (∀ b : Nat, b < a.toNat ∨ a.toNat + n ≤ b → t.mem.read b = s.mem.read b) ∧
        SameRegs s t ∧ t.pc = s.pc ∧ SameMonitor s t)

/-- 20_memory R56: what was written is read back cut to 8n bits, until another write touches one of its bytes: whatever a
read gives, it gives after any write that touches none of its bytes, and so after any number of them. -/
def Obligations.MemoryRoundTrip : Prop :=
  (∀ (s : State) (a : Word) (n v : Nat), s.mem.wf = true → (n = 1 ∨ n = 2 ∨ n = 4 ∨ n = 8) →
    InRange s.params a.toNat n →
    ∃ t, s.memWrite a n v = .ok t ∧ t.mem.wf = true ∧ t.memRead a n = .ok (v % 2 ^ (8 * n))) ∧
  (∀ (t u : State) (a b : Word) (n m w x : Nat), t.mem.wf = true → t.memRead a n = .ok x →
    t.memWrite b m w = .ok u → (b.toNat + m ≤ a.toNat ∨ a.toNat + n ≤ b.toNat) →
    u.mem.wf = true ∧ u.memRead a n = .ok x)

/-- 20_memory R57: the bytes, halves and the instruction word that other accesses see in a stored word. -/
def Obligations.MixedWidthAccessesSeeTheBytes : Prop :=
  ∀ (s t : State) (a w : Word), s.mem.wf = true → s.params.wf = true → s.memWrite a 4 w.toNat = .ok t →
    (∀ k, k < 4 → t.memRead (a + BitVec.ofNat 32 k) 1 = .ok (w.toNat / 2 ^ (8 * k) % 2 ^ 8)) ∧
    (∀ k, k < 3 → t.memRead (a + BitVec.ofNat 32 k) 2 = .ok (w.toNat / 2 ^ (8 * k) % 2 ^ 16)) ∧
    (a = t.pc → t.fetch = .ok w)

/-! ## Encoding -/

/-- 30_encoding R90 to R94: every bit of the five immediates, and the range of each. -/
def Obligations.ImmediatesHaveTheSpecsBitLayouts : Prop :=
  ∀ w : Word,
    (∀ k, k < 32 → (immI w).getLsbD k = if k < 11 then w.getLsbD (k + 20) else w.getLsbD 31) ∧
    (∀ k, k < 32 → (immS w).getLsbD k =
      if k < 5 then w.getLsbD (k + 7) else if k < 11 then w.getLsbD (k + 20) else w.getLsbD 31) ∧
    (∀ k, k < 32 → (immB w).getLsbD k =
      if k = 0 then false else if k < 5 then w.getLsbD (k + 7) else if k < 11 then w.getLsbD (k + 20)
      else if k = 11 then w.getLsbD 7 else w.getLsbD 31) ∧
    (∀ k, k < 32 → (immU w).getLsbD k = if k < 12 then false else w.getLsbD k) ∧
    (∀ k, k < 32 → (immJ w).getLsbD k =
      if k = 0 then false else if k < 11 then w.getLsbD (k + 20) else if k = 11 then w.getLsbD 20
      else if k < 20 then w.getLsbD k else w.getLsbD 31) ∧
    (-2048 ≤ (immI w).toInt ∧ (immI w).toInt ≤ 2047) ∧ (-2048 ≤ (immS w).toInt ∧ (immS w).toInt ≤ 2047) ∧
    (-4096 ≤ (immB w).toInt ∧ (immB w).toInt ≤ 4094) ∧ (-1048576 ≤ (immJ w).toInt ∧ (immJ w).toInt ≤ 1048574)

/-- Decoding the bytes of any well-formed instruction gives the instruction back, and leaves the bytes after it
(30_encoding R80 to R106). -/
def Obligations.DecodeOfEncodeIsTheInstruction : Prop :=
  ∀ (i : Instr) (rest : List Byte), i.wellFormed = true →
    decode (encode i) = .ok i ∧ decodeBytes (encodeBytes i ++ rest) = .ok (i, rest)

/-- A word that decodes is the encoding of what it decodes to, which is well formed: no bit of a valid word is ignored
(30_encoding R101, R105). -/
def Obligations.EncodeOfDecodeIsTheWord : Prop :=
  ∀ (w : Word) (i : Instr), decode w = .ok i → encode i = w ∧ i.wellFormed = true

/-- 30_encoding R105: a word is valid exactly when it matches one row of spec/opcode_table.json, it decodes to that row's
instruction, and no two rows overlap (the numbers are the spec's general knowledge, the strict reading its decisions D5 and
D6: log 6). -/
def Obligations.DecodeFollowsTheOpcodeTable : Prop :=
  (∀ w : Word, (∃ i, decode w = .ok i) ↔ ∃ r ∈ opcodeTable, r.matches w = true) ∧
  (∀ (w : Word) (i : Instr), decode w = .ok i → (rowOf i).matches w = true) ∧
  opcodeTable.Pairwise (fun r q => ∀ w : Word, ¬ (r.matches w = true ∧ q.matches w = true))

/-- Words that the spec writes out, one or more for each family (R84, R121, R129, R142, R165, R185, R188, R201 to R203,
R220, R230; all but the first are the spec's general-knowledge numbers: log 6). -/
def Obligations.SpecWordsDecodeAsTheSpecSays : Prop :=
  decode 0x00000297#32 = .ok (.auipc 5#5 0#32) ∧
  decode 0x123452B7#32 = .ok (.lui 5#5 0x12345000#32) ∧
  decode 0xFFDFF06F#32 = .ok (.jal 0#5 (-4#32)) ∧
  decode 0xFFD280E7#32 = .ok (.jalr 1#5 5#5 (-3#32)) ∧
  decode 0xFE208CE3#32 = .ok (.beq 1#5 2#5 (-8#32)) ∧
  decode 0x0022D503#32 = .ok (.lhu 10#5 5#5 2#32) ∧
  decode 0xFE62AC23#32 = .ok (.sw 5#5 6#5 (-8#32)) ∧
  decode 0xFFF00293#32 = .ok (.addi 5#5 0#5 (-1#32)) ∧
  decode 0x41F0D113#32 = .ok (.srai 2#5 1#5 31#5) ∧
  decode 0x402081B3#32 = .ok (.sub 3#5 1#5 2#5) ∧
  decode 0x0220C1B3#32 = .ok (.div 3#5 1#5 2#5) ∧
  decode 0x00100073#32 = .ok .ebreak

/-- Words that the spec names as Invalid (30_encoding R107, 41 R151, 43 R189, 44 R209, 46 R231; the spec's decisions D4 to D6: log 6). -/
def Obligations.SpecsInvalidWordsAreRejected : Prop :=
  decode 0x00000000#32 = .error .opcode ∧ decode 0xFFFFFFFF#32 = .error .opcode ∧
  decode 0x0FF0000F#32 = .error .opcode ∧ decode 0x0000202F#32 = .error .opcode ∧
  decode 0x000290E7#32 = .error .jalrFunct3 ∧ decode 0x00002063#32 = .error .branchFunct3 ∧
  decode 0x0002B503#32 = .error .loadFunct3 ∧ decode 0x0062F023#32 = .error .storeFunct3 ∧
  decode 0x40309113#32 = .error .opImmShift ∧ decode 0x8030D113#32 = .error .opImmShift ∧
  decode 0x4020C1B3#32 = .error .opFunct ∧ decode 0x802081B3#32 = .error .opFunct ∧
  decode 0x00000073#32 = .error .system ∧ decode 0x001000F3#32 = .error .system ∧
  decode 0x00101073#32 = .error .system

/-! ## The step -/

/-- 60_exceptions R240, R243, R246: when the four bytes at the pc decode to an instruction, a step of a machine that can
run is that instruction's meaning; a next state is counted once more, a fault crashes the machine as it stood. -/
def Obligations.StepRunsTheDecodedInstruction : Prop :=
  ∀ (s : State) (i : Instr), s.canStep → InRange s.params s.pc.toNat 4 →
    decodeBytes [s.mem.read s.pc.toNat, s.mem.read (s.pc.toNat + 1), s.mem.read (s.pc.toNat + 2),
      s.mem.read (s.pc.toNat + 3)] = .ok (i, []) →
    step s =
      match exec i s with
      | .next t => .next { t with icount := t.icount + 1 }
      | .fault _ => .next { s with crashed := true }
      | .refused r => .refused r

/-- A word placed where the next step fetches is the instruction that the next step runs (20_memory R60, R67;
withFetchWord is the model's own operation: log 5). -/
def Obligations.StepRunsThePlacedWord : Prop :=
  ∀ (s : State) (w : Word) (i : Instr), s.canStep → s.mem.wf = true → InRange s.params s.pc.toNat 4 →
    decode w = .ok i →
    step (s.withFetchWord 32 w.toNat) = State.monitor (s.withFetchWord 32 w.toNat) (exec i (s.withFetchWord 32 w.toNat)) ∧
    Jumped s { s.withFetchWord 32 w.toNat with mem := s.mem } s.pc ∧
    (∀ a : Nat, a < s.pc.toNat ∨ s.pc.toNat + 4 ≤ a → (s.withFetchWord 32 w.toNat).mem.read a = s.mem.read a)

/-- 60_exceptions R244: a word that is no instruction is counted, sets Aborted and ends the batch; no register, no byte
and not the pc change (that the pc stays is the spec's decision D13: log 6). -/
def Obligations.InvalidWordAbortsTheProgram : Prop :=
  ∀ (s : State) (e : Invalid), s.canStep → InRange s.params s.pc.toNat 4 →
    decodeBytes [s.mem.read s.pc.toNat, s.mem.read (s.pc.toNat + 1), s.mem.read (s.pc.toNat + 2),
      s.mem.read (s.pc.toNat + 3)] = .error e →
    step s = .next { s with runState := .aborted, icount := s.icount + 1 } ∧
    ∀ n, execute (n + 1) s = .next { s with runState := .aborted, icount := s.icount + 1 }

/-- 60_exceptions R245, R249: ebreak changes the run state alone, to Ended if all 32 bits of x[10] are zero and to Aborted
otherwise; the step is counted and the batch ends (that the pc stays is the spec's decision D13: log 6). -/
def Obligations.EbreakHaltsByTheValueOfA0 : Prop :=
  ∀ s : State,
    exec .ebreak s = .next { s with runState := if s.readReg 10#5 = 0#32 then .ended else .aborted } ∧
    (s.canStep → s.fetch = .ok 0x00100073#32 →
      ∀ n, execute (n + 1) s =
        .next { s with
          runState := if s.readReg 10#5 = 0#32 then .ended else .aborted
          icount := s.icount + 1 })

/-- 20_memory R60: a fetch is the memory unit's read of 4 bytes at the pc, at any alignment; out of range it is a MemFault,
and the step changes nothing but `crashed`. -/
def Obligations.FetchIsAReadAtThePc : Prop :=
  ∀ s : State,
    (∀ v, s.memRead s.pc 4 = .ok v → s.fetch = .ok (BitVec.ofNat 32 v)) ∧
    (∀ f, s.memRead s.pc 4 = .error f → s.fetch = .error f) ∧
    (InRange s.params s.pc.toNat 4 → ∃ v, s.memRead s.pc 4 = .ok v ∧ v < 2 ^ 32) ∧
    (s.canStep → ¬ InRange s.params s.pc.toNat 4 →
      s.fetch = .error (.memFault s.pc 4) ∧ step s = .next { s with crashed := true })

/-- The batch of `execute` stops at a step that crashes, whether its fetch, its load, its store or its division faults: the
state is as before that step, uncounted, with `crashed` set, and Running is left (60_exceptions R246, R251; `crashed` is
the spec's decision D14: log 6). A crash later in a batch follows with SplittingABatchChangesNothing. -/
def Obligations.ExecuteStopsAtACrash : Prop :=
  ∀ (s t : State) (n : Nat), s.canStep → step s = .next t → t.crashed = true →
    execute (n + 1) s = .next { s with crashed := true, runState := .running }

/-- 60_exceptions R250, R251 (the model's stutter in `step`: log 7): Ended, Aborted and Quitting machines do not run and do
not change. -/
def Obligations.HaltedMachineDoesNotRun : Prop :=
  ∀ s : State, s.crashed = false → (s.runState = .ended ∨ s.runState = .aborted ∨ s.runState = .quitting) →
    step s = .next s ∧ ∀ n, execute n s = .next s

/-- Every step keeps x[0] zero, memory canonical and inside the range and the parameters legal, wherever the pc is; and it
keeps an even pc besides. -/
def Obligations.StepKeepsTheInvariant : Prop :=
  ∀ s t : State, step s = .next t → (s.Sound → t.Sound) ∧ (s.Inv → t.Inv)

/-- 60_exceptions R260: a step that returns an outcome is counted, a crash is not, a refused or no-op `execute` is not
(derived by the spec: log 6). -/
def Obligations.StepsThatReturnAreCounted : Prop :=
  ∀ s t : State,
    (s.canStep → step s = .next t → t.crashed = false → t.icount = s.icount + 1) ∧
    (s.canStep → step s = .next t → t.crashed = true → t.icount = s.icount) ∧
    (∀ n, s.runState.canRun = false → execute n s = .next t → t.icount = s.icount)

/-- 60_exceptions R248: a step that raises has changed no register, no byte of memory and not the pc. -/
def Obligations.TrapsArePrecise : Prop :=
  ∀ s t : State, s.canStep → step s = .next t → (t.crashed = true ∨ t.runState ≠ s.runState) →
    SameRegs s t ∧ t.pc = s.pc ∧ t.mem = s.mem

/-- The run state changes by traps alone (46_system R230, 60_exceptions R244, R249, R250): to Ended exactly by the ebreak
word with x[10] = 0, to Aborted exactly by the ebreak word with x[10] ≠ 0 or by an invalid word. -/
def Obligations.OnlyTrapsChangeTheRunState : Prop :=
  ∀ s t : State, s.canStep → step s = .next t →
    (t.runState = .ended ↔ s.fetch = .ok 0x00100073#32 ∧ s.readReg 10#5 = 0#32) ∧
    (t.runState = .aborted ↔
      (s.fetch = .ok 0x00100073#32 ∧ s.readReg 10#5 ≠ 0#32) ∨ ∃ w e, s.fetch = .ok w ∧ decode w = .error e) ∧
    (t.runState = s.runState ∨ t.runState = .ended ∨ t.runState = .aborted)

/-- 10_state R23: a write to x[1] to x[31] holds, a write to x[0] changes nothing; an instruction writes at most one
register, its destination, and the instructions without one are the stores, the branches and ebreak. -/
def Obligations.InstructionWritesAtMostItsDestination : Prop :=
  (∀ (s : State) (r : Reg) (v : Word),
    (s.writeReg r v).readReg r = (if r = 0#5 then 0#32 else v) ∧ s.writeReg 0#5 v = s ∧
    ∀ j : Reg, j ≠ r → (s.writeReg r v).readReg j = s.readReg j) ∧
  (∀ (i : Instr) (s t : State), exec i s = .next t →
    ∀ j : Reg, t.readReg j ≠ s.readReg j → destOf i = some j ∧ j ≠ 0#5) ∧
  (∀ i : Instr, destOf i = none ↔
    i = .ebreak ∨ (opcodeOf (encode i) = 0b0100011#7 ∨ opcodeOf (encode i) = 0b1100011#7))

/-- An instruction changes no byte of memory outside the bytes it stores to, and none at all if it is no store
(43_load_store R180, 20_memory R55). -/
def Obligations.OnlyStoresChangeMemory : Prop :=
  ∀ (i : Instr) (s t : State), s.mem.wf = true → exec i s = .next t →
    (storesTo s i = none → SameMemory s t) ∧
    (∀ (a : Word) (n : Nat), storesTo s i = some (a, n) →
      ∀ b : Nat, b < a.toNat ∨ a.toNat + n ≤ b → t.mem.read b = s.mem.read b)

/-- No instruction sees the run state, the counter or the crashed mark (10_state R38): running with others there gives
the same outcome, with those values carried along (the run state that ebreak sets apart). -/
def Obligations.InstructionsNeverSeeTheMonitor : Prop :=
  ∀ (i : Instr) (s : State) (r : RunState) (k : Nat) (c : Bool),
    match exec i s, exec i { s with runState := r, icount := k, crashed := c } with
    | .next t, .next u =>
      u = { t with runState := if i = .ebreak then t.runState else r, icount := k, crashed := c }
    | .fault f, .fault g => f = g
    | _, _ => False

/-- No step changes the machine's parameters (10_state R20 calls them no state; the field is the model's: log 1). -/
def Obligations.ParametersNeverChange : Prop :=
  ∀ s t : State, step s = .next t → t.params = s.params

/-- A machine that is not crashed always has a next state: decode is total and no meaning refuses (30_encoding R105,
60_exceptions R241, R250). -/
def Obligations.LiveMachineAlwaysSteps : Prop :=
  ∀ s : State, s.crashed = false → ∃ t, step s = .next t

/-! ## Instructions: result, frame and completion -/

/-- 45_lui_auipc R220, R221: encoding, result and frame. -/
def Obligations.UpperImmediateResults : Prop :=
  EncodedByOpcode 0b0110111#7 (fun w => .lui (rdOf w) (immU w)) ∧
  EncodedByOpcode 0b0010111#7 (fun w => .auipc (rdOf w) (immU w)) ∧
  ∀ (rd : Reg) (imm : Word) (s : State),
    (∃ t, exec (.lui rd imm) s = .next t ∧ Retired s t rd imm (s.pc + 4#32)) ∧
    (∃ t, exec (.auipc rd imm) s = .next t ∧
      Retired s t rd (BitVec.ofNat 32 (s.pc.toNat + imm.toNat)) (s.pc + 4#32))

/-- 44_control_flow R201, R202: link and target; jalr uses the old x[rs1] and clears bit 0 alone (that the targets are the
pc plus imm_J and x[rs1] plus imm_I the spec marks as general knowledge, the old x[rs1] as its decision D7: log 6). -/
def Obligations.JumpAndLinkResults : Prop :=
  ∀ (rd rs1 : Reg) (imm : Word) (s : State),
    (∃ t, exec (.jal rd imm) s = .next t ∧
      Retired s t rd (s.pc + 4#32) (BitVec.ofNat 32 (s.pc.toNat + imm.toNat))) ∧
    (∃ t, exec (.jalr rd rs1 imm) s = .next t ∧
      Retired s t rd (s.pc + 4#32) (BitVec.ofNat 32 (2 * (((s.readReg rs1).toNat + imm.toNat) % 2 ^ 32 / 2))))

/-- 44_control_flow R203 to R208: the six encodings and comparisons; no register and no byte changes. -/
def Obligations.BranchResults : Prop :=
  EncodedByFunct3 0b1100011#7 0b000#3 (fun w => .beq (rs1Of w) (rs2Of w) (immB w)) ∧
  EncodedByFunct3 0b1100011#7 0b001#3 (fun w => .bne (rs1Of w) (rs2Of w) (immB w)) ∧
  EncodedByFunct3 0b1100011#7 0b100#3 (fun w => .blt (rs1Of w) (rs2Of w) (immB w)) ∧
  EncodedByFunct3 0b1100011#7 0b101#3 (fun w => .bge (rs1Of w) (rs2Of w) (immB w)) ∧
  EncodedByFunct3 0b1100011#7 0b110#3 (fun w => .bltu (rs1Of w) (rs2Of w) (immB w)) ∧
  EncodedByFunct3 0b1100011#7 0b111#3 (fun w => .bgeu (rs1Of w) (rs2Of w) (immB w)) ∧
  ∀ (rs1 rs2 : Reg) (imm : Word) (s : State),
    (∃ t, exec (.beq rs1 rs2 imm) s = .next t ∧
      Jumped s t (if (s.readReg rs1).toNat = (s.readReg rs2).toNat then s.pc + imm else s.pc + 4#32)) ∧
    (∃ t, exec (.bne rs1 rs2 imm) s = .next t ∧
      Jumped s t (if (s.readReg rs1).toNat ≠ (s.readReg rs2).toNat then s.pc + imm else s.pc + 4#32)) ∧
    (∃ t, exec (.blt rs1 rs2 imm) s = .next t ∧
      Jumped s t (if (s.readReg rs1).toInt < (s.readReg rs2).toInt then s.pc + imm else s.pc + 4#32)) ∧
    (∃ t, exec (.bge rs1 rs2 imm) s = .next t ∧
      Jumped s t (if (s.readReg rs1).toInt ≥ (s.readReg rs2).toInt then s.pc + imm else s.pc + 4#32)) ∧
    (∃ t, exec (.bltu rs1 rs2 imm) s = .next t ∧
      Jumped s t (if (s.readReg rs1).toNat < (s.readReg rs2).toNat then s.pc + imm else s.pc + 4#32)) ∧
    (∃ t, exec (.bgeu rs1 rs2 imm) s = .next t ∧
      Jumped s t (if (s.readReg rs1).toNat ≥ (s.readReg rs2).toNat then s.pc + imm else s.pc + 4#32))

/-- 43_load_store R181 to R185: the encodings; in range, at any alignment, the value with its byte order and extension; out
of range the fault. -/
def Obligations.LoadResults : Prop :=
  EncodedByFunct3 0b0000011#7 0b000#3 (fun w => .lb (rdOf w) (rs1Of w) (immI w)) ∧
  EncodedByFunct3 0b0000011#7 0b001#3 (fun w => .lh (rdOf w) (rs1Of w) (immI w)) ∧
  EncodedByFunct3 0b0000011#7 0b010#3 (fun w => .lw (rdOf w) (rs1Of w) (immI w)) ∧
  EncodedByFunct3 0b0000011#7 0b100#3 (fun w => .lbu (rdOf w) (rs1Of w) (immI w)) ∧
  EncodedByFunct3 0b0000011#7 0b101#3 (fun w => .lhu (rdOf w) (rs1Of w) (immI w)) ∧
  ∀ (rd rs1 : Reg) (imm ea : Word) (s : State), ea = s.readReg rs1 + imm →
    (InRange s.params ea.toNat 1 →
      (∃ t, exec (.lb rd rs1 imm) s = .next t ∧
        Retired s t rd ((s.mem.read ea.toNat).signExtend 32) (s.pc + 4#32)) ∧
      (∃ t, exec (.lbu rd rs1 imm) s = .next t ∧
        Retired s t rd ((s.mem.read ea.toNat).zeroExtend 32) (s.pc + 4#32))) ∧
    (InRange s.params ea.toNat 2 →
      (∃ t, exec (.lh rd rs1 imm) s = .next t ∧
        Retired s t rd ((s.mem.read (ea.toNat + 1) ++ s.mem.read ea.toNat).signExtend 32) (s.pc + 4#32)) ∧
      (∃ t, exec (.lhu rd rs1 imm) s = .next t ∧
        Retired s t rd ((s.mem.read (ea.toNat + 1) ++ s.mem.read ea.toNat).zeroExtend 32) (s.pc + 4#32))) ∧
    (InRange s.params ea.toNat 4 →
      ∃ t, exec (.lw rd rs1 imm) s = .next t ∧
        Retired s t rd
          (s.mem.read (ea.toNat + 3) ++ s.mem.read (ea.toNat + 2) ++ s.mem.read (ea.toNat + 1) ++ s.mem.read ea.toNat)
          (s.pc + 4#32)) ∧
    (¬ InRange s.params ea.toNat 1 →
      exec (.lb rd rs1 imm) s = .fault (.memFault ea 1) ∧ exec (.lbu rd rs1 imm) s = .fault (.memFault ea 1)) ∧
    (¬ InRange s.params ea.toNat 2 →
      exec (.lh rd rs1 imm) s = .fault (.memFault ea 2) ∧ exec (.lhu rd rs1 imm) s = .fault (.memFault ea 2)) ∧
    (¬ InRange s.params ea.toNat 4 → exec (.lw rd rs1 imm) s = .fault (.memFault ea 4))

/-- 43_load_store R180, 42_muldiv R169, 60_exceptions R246: a step whose instruction faults sets `crashed` and changes
nothing else; every load and store out of range faults, also a load to x0 (`crashed` is the spec's decision D14: log 6). -/
def Obligations.AccessOutsideMemoryCrashesTheStep : Prop :=
  ∀ (s : State) (w : Word) (i : Instr), s.canStep → s.fetch = .ok w → decode w = .ok i →
    (∀ f, exec i s = .fault f → step s = .next { s with crashed := true }) ∧
    (∀ rd rs1 imm,
      (i = .lb rd rs1 imm ∨ i = .lbu rd rs1 imm) ∧ ¬ InRange s.params (s.readReg rs1 + imm).toNat 1 ∨
      (i = .lh rd rs1 imm ∨ i = .lhu rd rs1 imm) ∧ ¬ InRange s.params (s.readReg rs1 + imm).toNat 2 ∨
      i = .lw rd rs1 imm ∧ ¬ InRange s.params (s.readReg rs1 + imm).toNat 4 →
      step s = .next { s with crashed := true }) ∧
    (∀ a n, storesTo s i = some (a, n) → ¬ InRange s.params a.toNat n → step s = .next { s with crashed := true })

/-- 43_load_store R186 to R188: the encodings; in range the bytes stored at the effective address and no other; out of range
the fault. -/
def Obligations.StoreResults : Prop :=
  EncodedByFunct3 0b0100011#7 0b000#3 (fun w => .sb (rs1Of w) (rs2Of w) (immS w)) ∧
  EncodedByFunct3 0b0100011#7 0b001#3 (fun w => .sh (rs1Of w) (rs2Of w) (immS w)) ∧
  EncodedByFunct3 0b0100011#7 0b010#3 (fun w => .sw (rs1Of w) (rs2Of w) (immS w)) ∧
  ∀ (rs1 rs2 : Reg) (imm ea : Word) (s : State), s.mem.wf = true → ea = s.readReg rs1 + imm →
    storesTo s (.sb rs1 rs2 imm) = some (ea, 1) ∧ storesTo s (.sh rs1 rs2 imm) = some (ea, 2) ∧
    storesTo s (.sw rs1 rs2 imm) = some (ea, 4) ∧
    (InRange s.params ea.toNat 1 → ∃ t, exec (.sb rs1 rs2 imm) s = .next t ∧ Stored s t ea 1 (s.readReg rs2)) ∧
    (InRange s.params ea.toNat 2 → ∃ t, exec (.sh rs1 rs2 imm) s = .next t ∧ Stored s t ea 2 (s.readReg rs2)) ∧
    (InRange s.params ea.toNat 4 → ∃ t, exec (.sw rs1 rs2 imm) s = .next t ∧ Stored s t ea 4 (s.readReg rs2)) ∧
    (¬ InRange s.params ea.toNat 1 → exec (.sb rs1 rs2 imm) s = .fault (.memFault ea 1)) ∧
    (¬ InRange s.params ea.toNat 2 → exec (.sh rs1 rs2 imm) s = .fault (.memFault ea 2)) ∧
    (¬ InRange s.params ea.toNat 4 → exec (.sw rs1 rs2 imm) s = .fault (.memFault ea 4))

/-- 40_arith_logic_imm R121 to R123: encodings, results and frames. -/
def Obligations.ImmediateAddAndCompareResults : Prop :=
  EncodedByFunct3 0b0010011#7 0b000#3 (fun w => .addi (rdOf w) (rs1Of w) (immI w)) ∧
  EncodedByFunct3 0b0010011#7 0b010#3 (fun w => .slti (rdOf w) (rs1Of w) (immI w)) ∧
  EncodedByFunct3 0b0010011#7 0b011#3 (fun w => .sltiu (rdOf w) (rs1Of w) (immI w)) ∧
  ∀ (rd rs1 : Reg) (imm : Word) (s : State),
    (∃ t, exec (.addi rd rs1 imm) s = .next t ∧
      Retired s t rd (BitVec.ofNat 32 ((s.readReg rs1).toNat + imm.toNat)) (s.pc + 4#32)) ∧
    (∃ t, exec (.slti rd rs1 imm) s = .next t ∧
      Retired s t rd (if (s.readReg rs1).toInt < imm.toInt then 1#32 else 0#32) (s.pc + 4#32)) ∧
    (∃ t, exec (.sltiu rd rs1 imm) s = .next t ∧
      Retired s t rd (if (s.readReg rs1).toNat < imm.toNat then 1#32 else 0#32) (s.pc + 4#32))

/-- 40_arith_logic_imm R124 to R126: encodings, results bit by bit and frames. -/
def Obligations.ImmediateLogicResults : Prop :=
  EncodedByFunct3 0b0010011#7 0b100#3 (fun w => .xori (rdOf w) (rs1Of w) (immI w)) ∧
  EncodedByFunct3 0b0010011#7 0b110#3 (fun w => .ori (rdOf w) (rs1Of w) (immI w)) ∧
  EncodedByFunct3 0b0010011#7 0b111#3 (fun w => .andi (rdOf w) (rs1Of w) (immI w)) ∧
  ∀ (rd rs1 : Reg) (imm : Word) (s : State),
    (∃ t v, exec (.xori rd rs1 imm) s = .next t ∧ Retired s t rd v (s.pc + 4#32) ∧
      ∀ k, v.getLsbD k = ((s.readReg rs1).getLsbD k ^^ imm.getLsbD k)) ∧
    (∃ t v, exec (.ori rd rs1 imm) s = .next t ∧ Retired s t rd v (s.pc + 4#32) ∧
      ∀ k, v.getLsbD k = ((s.readReg rs1).getLsbD k || imm.getLsbD k)) ∧
    (∃ t v, exec (.andi rd rs1 imm) s = .next t ∧ Retired s t rd v (s.pc + 4#32) ∧
      ∀ k, v.getLsbD k = ((s.readReg rs1).getLsbD k && imm.getLsbD k))

/-- 40_arith_logic_imm R127 to R129: encodings, results and frames; the arithmetic right shift is the floor of the signed
quotient. Every other selector is no instruction (the spec's decision D5: log 6). -/
def Obligations.ImmediateShiftResults : Prop :=
  EncodedByFunct7 0b0010011#7 0b001#3 0b0000000#7 (fun w => .slli (rdOf w) (rs1Of w) (shamtOf w)) ∧
  EncodedByFunct7 0b0010011#7 0b101#3 0b0000000#7 (fun w => .srli (rdOf w) (rs1Of w) (shamtOf w)) ∧
  EncodedByFunct7 0b0010011#7 0b101#3 0b0100000#7 (fun w => .srai (rdOf w) (rs1Of w) (shamtOf w)) ∧
  (∀ w : Word, opcodeOf w = 0b0010011#7 → funct3Of w = 0b001#3 → funct7Of w ≠ 0b0000000#7 →
    decode w = .error .opImmShift) ∧
  (∀ w : Word, opcodeOf w = 0b0010011#7 → funct3Of w = 0b101#3 → funct7Of w ≠ 0b0000000#7 → funct7Of w ≠ 0b0100000#7 →
    decode w = .error .opImmShift) ∧
  ∀ (rd rs1 : Reg) (shamt : BitVec 5) (s : State),
    (∃ t, exec (.slli rd rs1 shamt) s = .next t ∧
      Retired s t rd (BitVec.ofNat 32 ((s.readReg rs1).toNat * 2 ^ shamt.toNat)) (s.pc + 4#32)) ∧
    (∃ t, exec (.srli rd rs1 shamt) s = .next t ∧
      Retired s t rd (BitVec.ofNat 32 ((s.readReg rs1).toNat / 2 ^ shamt.toNat)) (s.pc + 4#32)) ∧
    (∃ t, exec (.srai rd rs1 shamt) s = .next t ∧
      Retired s t rd (BitVec.ofInt 32 ((s.readReg rs1).toInt / 2 ^ shamt.toNat)) (s.pc + 4#32))

/-- 41_arith_logic_reg R141, R142, R144, R145: encodings, results and frames. -/
def Obligations.RegisterAddAndCompareResults : Prop :=
  EncodedByFunct7 0b0110011#7 0b000#3 0b0000000#7 (fun w => .add (rdOf w) (rs1Of w) (rs2Of w)) ∧
  EncodedByFunct7 0b0110011#7 0b000#3 0b0100000#7 (fun w => .sub (rdOf w) (rs1Of w) (rs2Of w)) ∧
  EncodedByFunct7 0b0110011#7 0b010#3 0b0000000#7 (fun w => .slt (rdOf w) (rs1Of w) (rs2Of w)) ∧
  EncodedByFunct7 0b0110011#7 0b011#3 0b0000000#7 (fun w => .sltu (rdOf w) (rs1Of w) (rs2Of w)) ∧
  ∀ (rd rs1 rs2 : Reg) (s : State),
    (∃ t, exec (.add rd rs1 rs2) s = .next t ∧
      Retired s t rd (BitVec.ofNat 32 ((s.readReg rs1).toNat + (s.readReg rs2).toNat)) (s.pc + 4#32)) ∧
    (∃ t, exec (.sub rd rs1 rs2) s = .next t ∧
      Retired s t rd (BitVec.ofInt 32 ((s.readReg rs1).toInt - (s.readReg rs2).toInt)) (s.pc + 4#32)) ∧
    (∃ t, exec (.slt rd rs1 rs2) s = .next t ∧
      Retired s t rd (if (s.readReg rs1).toInt < (s.readReg rs2).toInt then 1#32 else 0#32) (s.pc + 4#32)) ∧
    (∃ t, exec (.sltu rd rs1 rs2) s = .next t ∧
      Retired s t rd (if (s.readReg rs1).toNat < (s.readReg rs2).toNat then 1#32 else 0#32) (s.pc + 4#32))

/-- 41_arith_logic_reg R143, R147, R148: encodings, results and frames; only the low five bits of the second operand
count. -/
def Obligations.RegisterShiftResults : Prop :=
  EncodedByFunct7 0b0110011#7 0b001#3 0b0000000#7 (fun w => .sll (rdOf w) (rs1Of w) (rs2Of w)) ∧
  EncodedByFunct7 0b0110011#7 0b101#3 0b0000000#7 (fun w => .srl (rdOf w) (rs1Of w) (rs2Of w)) ∧
  EncodedByFunct7 0b0110011#7 0b101#3 0b0100000#7 (fun w => .sra (rdOf w) (rs1Of w) (rs2Of w)) ∧
  ∀ (rd rs1 rs2 : Reg) (s : State),
    (∃ t, exec (.sll rd rs1 rs2) s = .next t ∧
      Retired s t rd (BitVec.ofNat 32 ((s.readReg rs1).toNat * 2 ^ ((s.readReg rs2).toNat % 32))) (s.pc + 4#32)) ∧
    (∃ t, exec (.srl rd rs1 rs2) s = .next t ∧
      Retired s t rd (BitVec.ofNat 32 ((s.readReg rs1).toNat / 2 ^ ((s.readReg rs2).toNat % 32))) (s.pc + 4#32)) ∧
    (∃ t, exec (.sra rd rs1 rs2) s = .next t ∧
      Retired s t rd (BitVec.ofInt 32 ((s.readReg rs1).toInt / 2 ^ ((s.readReg rs2).toNat % 32))) (s.pc + 4#32))

/-- 41_arith_logic_reg R146, R149, R150: encodings, results bit by bit and frames. -/
def Obligations.RegisterLogicResults : Prop :=
  EncodedByFunct7 0b0110011#7 0b100#3 0b0000000#7 (fun w => .xor (rdOf w) (rs1Of w) (rs2Of w)) ∧
  EncodedByFunct7 0b0110011#7 0b110#3 0b0000000#7 (fun w => .or (rdOf w) (rs1Of w) (rs2Of w)) ∧
  EncodedByFunct7 0b0110011#7 0b111#3 0b0000000#7 (fun w => .and (rdOf w) (rs1Of w) (rs2Of w)) ∧
  ∀ (rd rs1 rs2 : Reg) (s : State),
    (∃ t v, exec (.xor rd rs1 rs2) s = .next t ∧ Retired s t rd v (s.pc + 4#32) ∧
      ∀ k, v.getLsbD k = ((s.readReg rs1).getLsbD k ^^ (s.readReg rs2).getLsbD k)) ∧
    (∃ t v, exec (.or rd rs1 rs2) s = .next t ∧ Retired s t rd v (s.pc + 4#32) ∧
      ∀ k, v.getLsbD k = ((s.readReg rs1).getLsbD k || (s.readReg rs2).getLsbD k)) ∧
    (∃ t v, exec (.and rd rs1 rs2) s = .next t ∧ Retired s t rd v (s.pc + 4#32) ∧
      ∀ k, v.getLsbD k = ((s.readReg rs1).getLsbD k && (s.readReg rs2).getLsbD k))

/-- 42_muldiv R161 to R164: the encodings; the low word of the product, whichever the signs, and the three high words as the floor of
the exact product by 2^32 (which operand of mulhsu is signed the spec marks as general knowledge: log 6). -/
def Obligations.MultiplyResults : Prop :=
  EncodedByFunct7 0b0110011#7 0b000#3 0b0000001#7 (fun w => .mul (rdOf w) (rs1Of w) (rs2Of w)) ∧
  EncodedByFunct7 0b0110011#7 0b001#3 0b0000001#7 (fun w => .mulh (rdOf w) (rs1Of w) (rs2Of w)) ∧
  EncodedByFunct7 0b0110011#7 0b010#3 0b0000001#7 (fun w => .mulhsu (rdOf w) (rs1Of w) (rs2Of w)) ∧
  EncodedByFunct7 0b0110011#7 0b011#3 0b0000001#7 (fun w => .mulhu (rdOf w) (rs1Of w) (rs2Of w)) ∧
  ∀ (rd rs1 rs2 : Reg) (s : State),
    (∃ t, exec (.mul rd rs1 rs2) s = .next t ∧
      Retired s t rd (BitVec.ofNat 32 ((s.readReg rs1).toNat * (s.readReg rs2).toNat)) (s.pc + 4#32)) ∧
    (∃ t, exec (.mulh rd rs1 rs2) s = .next t ∧
      Retired s t rd (BitVec.ofInt 32 ((s.readReg rs1).toInt * (s.readReg rs2).toInt / 2 ^ 32)) (s.pc + 4#32)) ∧
    (∃ t, exec (.mulhsu rd rs1 rs2) s = .next t ∧
      Retired s t rd (BitVec.ofInt 32 ((s.readReg rs1).toInt * ((s.readReg rs2).toNat : Int) / 2 ^ 32))
        (s.pc + 4#32)) ∧
    (∃ t, exec (.mulhu rd rs1 rs2) s = .next t ∧
      Retired s t rd (BitVec.ofNat 32 ((s.readReg rs1).toNat * (s.readReg rs2).toNat / 2 ^ 32)) (s.pc + 4#32))

/-- 42_muldiv R165, R167 outside the corners, under either policy: the quotient and the remainder of the signed views,
rounded toward zero, the remainder with the dividend's sign (both are the spec's general knowledge, D29 and G10: log 6). -/
def Obligations.SignedDivisionResults : Prop :=
  ∀ (rd rs1 rs2 : Reg) (s : State), s.readReg rs2 ≠ 0#32 →
    ¬ (s.readReg rs1 = 0x80000000#32 ∧ s.readReg rs2 = 0xFFFFFFFF#32) →
    ∃ t u q r, exec (.div rd rs1 rs2) s = .next t ∧ Retired s t rd q (s.pc + 4#32) ∧
      exec (.rem rd rs1 rs2) s = .next u ∧ Retired s u rd r (s.pc + 4#32) ∧
      (s.readReg rs1).toInt = q.toInt * (s.readReg rs2).toInt + r.toInt ∧
      |r.toInt| < |(s.readReg rs2).toInt| ∧ 0 ≤ r.toInt * (s.readReg rs1).toInt

/-- 42_muldiv R166, R168 outside the corner, under either policy. -/
def Obligations.UnsignedDivisionResults : Prop :=
  ∀ (rd rs1 rs2 : Reg) (s : State), s.readReg rs2 ≠ 0#32 →
    ∃ t u q r, exec (.divu rd rs1 rs2) s = .next t ∧ Retired s t rd q (s.pc + 4#32) ∧
      exec (.remu rd rs1 rs2) s = .next u ∧ Retired s u rd r (s.pc + 4#32) ∧
      (s.readReg rs1).toNat = q.toNat * (s.readReg rs2).toNat + r.toNat ∧ r.toNat < (s.readReg rs2).toNat

/-- 42_muldiv R169, DIV_POLICY = riscv: every corner is an ordinary step with the table's result (the spec's decision
D12: log 6). -/
def Obligations.DivisionCornersUnderRiscvPolicy : Prop :=
  ∀ (rd rs1 rs2 : Reg) (s : State), s.params.divPolicy = .riscv →
    (s.readReg rs2 = 0#32 →
      (∃ t, exec (.div rd rs1 rs2) s = .next t ∧ Retired s t rd 0xFFFFFFFF#32 (s.pc + 4#32)) ∧
      (∃ t, exec (.divu rd rs1 rs2) s = .next t ∧ Retired s t rd 0xFFFFFFFF#32 (s.pc + 4#32)) ∧
      (∃ t, exec (.rem rd rs1 rs2) s = .next t ∧ Retired s t rd (s.readReg rs1) (s.pc + 4#32)) ∧
      (∃ t, exec (.remu rd rs1 rs2) s = .next t ∧ Retired s t rd (s.readReg rs1) (s.pc + 4#32))) ∧
    (s.readReg rs1 = 0x80000000#32 → s.readReg rs2 = 0xFFFFFFFF#32 →
      (∃ t, exec (.div rd rs1 rs2) s = .next t ∧ Retired s t rd 0x80000000#32 (s.pc + 4#32)) ∧
      (∃ t, exec (.divu rd rs1 rs2) s = .next t ∧ Retired s t rd 0#32 (s.pc + 4#32)) ∧
      (∃ t, exec (.rem rd rs1 rs2) s = .next t ∧ Retired s t rd 0#32 (s.pc + 4#32)) ∧
      (∃ t, exec (.remu rd rs1 rs2) s = .next t ∧ Retired s t rd 0x80000000#32 (s.pc + 4#32)))

/-- 42_muldiv R169, DIV_POLICY = fatal: every corner of the table faults, and no other operands do (the spec's decision D12:
log 6). -/
def Obligations.DivisionCornersUnderFatalPolicy : Prop :=
  ∀ (rd rs1 rs2 : Reg) (s : State), s.params.divPolicy = .fatal →
    (exec (.div rd rs1 rs2) s = .fault .divFault ↔
      s.readReg rs2 = 0#32 ∨ (s.readReg rs1 = 0x80000000#32 ∧ s.readReg rs2 = 0xFFFFFFFF#32)) ∧
    (exec (.rem rd rs1 rs2) s = .fault .divFault ↔
      s.readReg rs2 = 0#32 ∨ (s.readReg rs1 = 0x80000000#32 ∧ s.readReg rs2 = 0xFFFFFFFF#32)) ∧
    (exec (.divu rd rs1 rs2) s = .fault .divFault ↔ s.readReg rs2 = 0#32) ∧
    (exec (.remu rd rs1 rs2) s = .fault .divFault ↔ s.readReg rs2 = 0#32)

/-! ## The Monitor and the host -/

/-- Splitting a run into batches changes nothing, as long as it does not crash (60_exceptions R251). -/
def Obligations.SplittingABatchChangesNothing : Prop :=
  ∀ (m n : Nat) (s t : State), execute m s = .next t → t.crashed = false → execute (m + n) s = execute n t

/-- 60_exceptions R273: the host's single step, `execute(1)` on a Stopped machine, is one step of the machine, short of a
crash; and `execute(0)` performs no step and leaves the machine Stopped (R251). -/
def Obligations.ExecuteOneIsOneStep : Prop :=
  ∀ s : State,
    (∀ t, s.runState = .stopped → step s = .next t → t.crashed = false → execute 1 s = .next t) ∧
    (s.canStep → execute 0 s = .next { s with runState := .stopped })

/-- 60_exceptions R252: quit() goes to Quitting unless already Aborted, and touches nothing else. -/
def Obligations.QuitIsRefusedByAbortedAlone : Prop :=
  ∀ s : State, s.crashed = false →
    quit s = .next { s with runState := if s.runState = .aborted then .aborted else .quitting }

/-- 60_exceptions R272: `examine` gives the little-endian words from the address up and changes nothing; at the first word
outside memory it crashes the machine, with the words before it read. -/
def Obligations.ExamineReadsWordsOrCrashes : Prop :=
  ∀ (n : Nat) (a : Word) (s : State), s.crashed = false →
    ((∀ k, k < n → InRange s.params (a + BitVec.ofNat 32 (4 * k)).toNat 4) →
      ∃ ws, examine n a s = .ok (s, ws) ∧ ws.length = n ∧
        ∀ (k : Nat) (h : k < ws.length), s.memRead (a + BitVec.ofNat 32 (4 * k)) 4 = .ok (ws[k]).toNat) ∧
    (∀ k, k < n → (∀ j, j < k → InRange s.params (a + BitVec.ofNat 32 (4 * j)).toNat 4) →
      ¬ InRange s.params (a + BitVec.ofNat 32 (4 * k)).toNat 4 →
      ∃ ws, examine n a s = .ok ({ s with crashed := true }, ws) ∧ ws.length = k ∧
        ∀ (j : Nat) (h : j < ws.length), s.memRead (a + BitVec.ofNat 32 (4 * j)) 4 = .ok (ws[j]).toNat)

/-- 60_exceptions R275 (host software): every slot index stays in exactly one of the two lists, whatever the commands
do. -/
def Obligations.WatchpointSlotsStayPartitioned : Prop :=
  ∀ (h : HostChoices) (cmd : Command) (c : Session),
    (c.pool.free ++ c.pool.used.map Watchpoint.slot).Perm (List.range 32) →
    ((runCommand h cmd c).1.pool.free ++ (runCommand h cmd c).1.pool.used.map Watchpoint.slot).Perm (List.range 32)

/-- The four worked expressions of 95_test_vectors S7 (60_exceptions R277, host software). -/
def Obligations.SpecsExpressionsEvaluate : Prop :=
  ∀ h : HostChoices,
    evaluate h State.reset "1+2*3" = .value 7#32 ∧ evaluate h State.reset "(1+2)*3" = .value 9#32 ∧
    evaluate h State.reset "0x10+$zero" = .value 16#32 ∧ evaluate h State.reset "1==1&&0" = .value 0#32

/-- The host's operations on a machine that is not crashed: `is_bad_status` (60_exceptions R253), the explicit reset
(70_reset_and_hazards R304), reading registers by index and by name, the pc and the run state (R270, R271; the names are
the spec's D22: log 12), `load_image` (20_memory R62). -/
def Obligations.LiveMachineAnswersTheHost : Prop :=
  ∀ s : State, s.crashed = false →
    isBadStatus s = .ok (decide (s.runState = .aborted)) ∧
    hostReset s = .next s.explicitReset ∧
    (∀ i : Reg, inspectReg s i = .ok (s.readReg i)) ∧
    inspectName s "zero" = .ok (some 0#32) ∧ inspectName s "t0" = .ok (some (s.readReg 5#5)) ∧
    inspectName s "a0" = .ok (some (s.readReg 10#5)) ∧
    (∀ (k : Nat) (h : k < regNames.length), inspectName s regNames[k] = .ok (some (s.readReg (BitVec.ofNat 5 k)))) ∧
    (∀ name : String, name ∉ regNames → inspectName s name = .ok none) ∧
    inspectPc s = .ok s.pc ∧ inspectRunState s = .ok s.runState ∧
    (∀ image : List Byte, s.params.memSize < image.length → s.loadImage image = .refused .imageTooLarge) ∧
    (∀ image : List Byte, s.mem.wf = true → image.length ≤ s.params.memSize →
      ∃ t, s.loadImage image = .next t ∧
        (∀ (k : Nat) (h : k < image.length), t.mem.read (s.params.memBase.toNat + k) = image[k]) ∧
        (∀ b : Nat, b < s.params.memBase.toNat ∨ s.params.memBase.toNat + image.length ≤ b →
          t.mem.read b = s.mem.read b) ∧
        SameRegs s t ∧ t.pc = s.pc ∧ SameMonitor s t)

/-- 60_exceptions R273 (host software): without watchpoint checking `continue` is `execute`; and with it, single steps with
no watchpoint to check come to the same. The host never sees Running (R250). -/
def Obligations.ContinueWithoutWatchpointsIsExecute : Prop :=
  ∀ (h : HostChoices) (n : Nat) (c : Session), c.machine.crashed = false → c.machine.runState ≠ .running →
    h.watchpointChecking = false ∨ c.pool.used = [] →
    ∃ s, execute n c.machine = .next s ∧
      runCommand h (.cont n) c = ({ c with machine := s }, [if s.crashed then .crashed else .done])

/-- 60_exceptions R274 (host software): after a single step, one that trapped too (the model's choice: log 16), the oldest
watchpoint's changed value is reported and stored, `continue` ends, and nothing else changes; if its expression fails, an
error is reported, whether `continue` then goes on, as the host chooses (93 U20: log 17), or ends. -/
def Obligations.ContinueReportsAChangedValue : Prop :=
  ∀ (h : HostChoices) (n : Nat) (c : Session) (s : State) (w : Watchpoint) (ws : List Watchpoint),
    h.watchpointChecking = true → c.machine.canStep → execute 1 c.machine = .next s → s.crashed = false →
    c.pool.used = w :: ws →
    (∀ v : Word, evaluate h s w.text = .value v → v ≠ w.last →
      runCommand h (.cont (n + 1)) c =
        ({ machine := s, pool := { c.pool with used := { w with last := v } :: ws } }, [.changed w.slot w.last v])) ∧
    (evaluate h s w.text = .failed →
      (h.continueAfterFailure = true → s.runState = .stopped →
        runCommand h (.cont (n + 1)) c =
          ((runCommand h (.cont n) { c with machine := s }).1,
            .diagnostic :: (runCommand h (.cont n) { c with machine := s }).2)) ∧
      (h.continueAfterFailure = false ∨ s.runState ≠ .stopped →
        runCommand h (.cont (n + 1)) c = ({ c with machine := s }, [.diagnostic])))

/-- 60_exceptions R278 (host software): a line for each of the nine names of the command table; every line with another name
is unrecognized; every line with a wrong argument count or type is misused; both report a diagnostic and change nothing;
EOF ends the session. The model's choices (log 18): the syntax of a line, which arguments a command takes, and that EOF
changes nothing. -/
def Obligations.CommandLinesGoThroughTheTable : Prop :=
  ∀ budget : Nat,
    readCommand budget "continue" = .cont budget ∧ readCommand budget "info" = .info ∧
    readCommand budget "step" = .step ∧ readCommand budget "examine 2 $sp+4" = .examine 2 "$sp+4" ∧
    readCommand budget "print $a0" = .print "$a0" ∧ readCommand budget "quit" = .quit ∧
    readCommand budget "watch $a0" = .watch "$a0" ∧ readCommand budget "delete 31" = .delete 31 ∧
    readCommand budget "help" = .help ∧
    (∀ (line name : String) (rest : List Char), splitWord line.toList = (name.toList, rest) →
      (name ∉ ["continue", "info", "step", "examine", "print", "quit", "watch", "delete", "help"] →
        readCommand budget line = .unrecognized) ∧
      (name = "continue" ∨ name = "step" ∨ name = "quit" → rest ≠ [] → readCommand budget line = .misused) ∧
      (name = "print" ∨ name = "watch" → rest = [] → readCommand budget line = .misused) ∧
      (name = "examine" → readCount (splitWord rest).1 = none ∨ (splitWord rest).2 = [] →
        readCommand budget line = .misused) ∧
      (name = "delete" → readCount (splitWord rest).1 = none ∨ (splitWord rest).2 ≠ [] →
        readCommand budget line = .misused)) ∧
    ∀ (h : HostChoices) (c : Session), c.machine.crashed = false →
      runCommand h .unrecognized c = (c, [.diagnostic]) ∧ runCommand h .misused c = (c, [.diagnostic]) ∧
      ∀ rest, runSession h budget (.eof :: rest) c = (c, [])
end

