-- ==== Sys2Proof/Laws/Encoding.lean ====
section
/-! SUPPORT. The six columns of the format table (30_encoding R83): reading them back from an assembled word, putting
them together again, and masking them as spec/opcode_table.json does. -/

namespace Sys2Proof

section Columns

variable (t : BitVec 7) (f2 f1 : BitVec 5) (f3 : BitVec 3) (l : BitVec 5) (op : BitVec 7)

/-- Which column a bit of an assembled word comes from. -/
theorem getLsbD_assemble (i : Nat) :
    (assemble t f2 f1 f3 l op).getLsbD i =
      if i < 7 then op.getLsbD i else if i < 12 then l.getLsbD (i - 7) else if i < 15 then f3.getLsbD (i - 12)
      else if i < 20 then f1.getLsbD (i - 15) else if i < 25 then f2.getLsbD (i - 20) else t.getLsbD (i - 25) := by
  change BitVec.getLsbD (w := 7 + 5 + 5 + 3 + 5 + 7) (t ++ f2 ++ f1 ++ f3 ++ l ++ op) i = _
  simp only [BitVec.getLsbD_append, Nat.sub_sub]
  split_ifs <;> first | rfl | omega

@[simp] theorem opcodeOf_assemble : opcodeOf (assemble t f2 f1 f3 l op) = op := by
  apply BitVec.eq_of_getLsbD_eq
  intro i hi
  simp [opcodeOf, getLsbD_assemble, hi]

@[simp] theorem rdOf_assemble : rdOf (assemble t f2 f1 f3 l op) = l := by
  apply BitVec.eq_of_getLsbD_eq
  intro i hi
  simp only [rdOf, BitVec.getLsbD_extractLsb', getLsbD_assemble, hi]
  split_ifs <;> first | omega | simp

@[simp] theorem funct3Of_assemble : funct3Of (assemble t f2 f1 f3 l op) = f3 := by
  apply BitVec.eq_of_getLsbD_eq
  intro i hi
  simp only [funct3Of, BitVec.getLsbD_extractLsb', getLsbD_assemble, hi]
  split_ifs <;> first | omega | simp

@[simp] theorem rs1Of_assemble : rs1Of (assemble t f2 f1 f3 l op) = f1 := by
  apply BitVec.eq_of_getLsbD_eq
  intro i hi
  simp only [rs1Of, BitVec.getLsbD_extractLsb', getLsbD_assemble, hi]
  split_ifs <;> first | omega | simp

@[simp] theorem rs2Of_assemble : rs2Of (assemble t f2 f1 f3 l op) = f2 := by
  apply BitVec.eq_of_getLsbD_eq
  intro i hi
  simp only [rs2Of, BitVec.getLsbD_extractLsb', getLsbD_assemble, hi]
  split_ifs <;> first | omega | simp

@[simp] theorem shamtOf_assemble : shamtOf (assemble t f2 f1 f3 l op) = f2 := rs2Of_assemble t f2 f1 f3 l op

@[simp] theorem funct7Of_assemble : funct7Of (assemble t f2 f1 f3 l op) = t := by
  apply BitVec.eq_of_getLsbD_eq
  intro i hi
  simp only [funct7Of, BitVec.getLsbD_extractLsb', getLsbD_assemble, hi]
  split_ifs <;> first | omega | simp

/-- Columns mask column by column. -/
theorem assemble_and (t' : BitVec 7) (f2' f1' : BitVec 5) (f3' : BitVec 3) (l' : BitVec 5) (op' : BitVec 7) :
    assemble t f2 f1 f3 l op &&& assemble t' f2' f1' f3' l' op' =
      assemble (t &&& t') (f2 &&& f2') (f1 &&& f1') (f3 &&& f3') (l &&& l') (op &&& op') := by
  apply BitVec.eq_of_getLsbD_eq
  intro i hi
  simp only [getLsbD_assemble, BitVec.getLsbD_and]
  split_ifs <;> rfl

/-- The mask of the rows that fix the opcode alone. -/
theorem assemble_and_opcode : assemble t f2 f1 f3 l op &&& 0x0000007f#32 = assemble 0 0 0 0 0 op := by
  have h : (0x0000007f#32 : Word) = assemble 0 0 0 0 0 (BitVec.allOnes 7) := by decide
  rw [h, assemble_and, BitVec.and_allOnes]
  simp

/-- The mask of the rows that fix opcode and funct3. -/
theorem assemble_and_funct3 : assemble t f2 f1 f3 l op &&& 0x0000707f#32 = assemble 0 0 0 f3 0 op := by
  have h : (0x0000707f#32 : Word) = assemble 0 0 0 (BitVec.allOnes 3) 0 (BitVec.allOnes 7) := by decide
  rw [h, assemble_and, BitVec.and_allOnes, BitVec.and_allOnes]
  simp

/-- The mask of the rows that fix opcode, funct3 and funct7. -/
theorem assemble_and_funct7 : assemble t f2 f1 f3 l op &&& 0xfe00707f#32 = assemble t 0 0 f3 0 op := by
  have h : (0xfe00707f#32 : Word) = assemble (BitVec.allOnes 7) 0 0 (BitVec.allOnes 3) 0 (BitVec.allOnes 7) := by decide
  rw [h, assemble_and, BitVec.and_allOnes, BitVec.and_allOnes, BitVec.and_allOnes]
  simp

end Columns

/-- Every word is its six columns put together. -/
theorem assemble_fields (w : Word) :
    assemble (funct7Of w) (rs2Of w) (rs1Of w) (funct3Of w) (rdOf w) (opcodeOf w) = w := by
  apply BitVec.eq_of_getLsbD_eq
  intro i hi
  simp only [getLsbD_assemble, funct7Of, rs2Of, rs1Of, funct3Of, rdOf, opcodeOf, BitVec.getLsbD_extractLsb']
  interval_cases i <;> simp

end Sys2Proof
end

