-- ==== Sys2Proof/Laws/State.lean ====
section
/-! SUPPORT. One lemma per field per named update of State, and the register file's read-after-write. Later proofs cite
these instead of unfolding a record update. -/

namespace Sys2Proof.Machine

/-! ## Updates that are plain records -/

@[simp] theorem State.setPc_regs (s : State) (v : Word) : (s.setPc v).regs = s.regs := rfl
@[simp] theorem State.setPc_mem (s : State) (v : Word) : (s.setPc v).mem = s.mem := rfl
@[simp] theorem State.setPc_runState (s : State) (v : Word) : (s.setPc v).runState = s.runState := rfl
@[simp] theorem State.setPc_icount (s : State) (v : Word) : (s.setPc v).icount = s.icount := rfl
@[simp] theorem State.setPc_crashed (s : State) (v : Word) : (s.setPc v).crashed = s.crashed := rfl
@[simp] theorem State.setPc_params (s : State) (v : Word) : (s.setPc v).params = s.params := rfl
@[simp] theorem State.setPc_pc (s : State) (v : Word) : (s.setPc v).pc = v := rfl

@[simp] theorem State.advance_regs (s : State) : (s.advance).regs = s.regs := rfl
@[simp] theorem State.advance_mem (s : State) : (s.advance).mem = s.mem := rfl
@[simp] theorem State.advance_runState (s : State) : (s.advance).runState = s.runState := rfl
@[simp] theorem State.advance_icount (s : State) : (s.advance).icount = s.icount := rfl
@[simp] theorem State.advance_crashed (s : State) : (s.advance).crashed = s.crashed := rfl
@[simp] theorem State.advance_params (s : State) : (s.advance).params = s.params := rfl
@[simp] theorem State.advance_pc (s : State) : s.advance.pc = s.pc + 4#32 := rfl

@[simp] theorem State.countStep_regs (s : State) : (s.countStep).regs = s.regs := rfl
@[simp] theorem State.countStep_pc (s : State) : (s.countStep).pc = s.pc := rfl
@[simp] theorem State.countStep_mem (s : State) : (s.countStep).mem = s.mem := rfl
@[simp] theorem State.countStep_runState (s : State) : (s.countStep).runState = s.runState := rfl
@[simp] theorem State.countStep_crashed (s : State) : (s.countStep).crashed = s.crashed := rfl
@[simp] theorem State.countStep_params (s : State) : (s.countStep).params = s.params := rfl
@[simp] theorem State.countStep_icount (s : State) : s.countStep.icount = s.icount + 1 := rfl

@[simp] theorem State.resetCore_mem (s : State) : (s.resetCore).mem = s.mem := rfl
@[simp] theorem State.resetCore_runState (s : State) : (s.resetCore).runState = s.runState := rfl
@[simp] theorem State.resetCore_icount (s : State) : (s.resetCore).icount = s.icount := rfl
@[simp] theorem State.resetCore_crashed (s : State) : (s.resetCore).crashed = s.crashed := rfl
@[simp] theorem State.resetCore_params (s : State) : (s.resetCore).params = s.params := rfl

@[simp] theorem State.explicitReset_mem (s : State) : (s.explicitReset).mem = s.mem := rfl
@[simp] theorem State.explicitReset_crashed (s : State) : (s.explicitReset).crashed = s.crashed := rfl
@[simp] theorem State.explicitReset_params (s : State) : (s.explicitReset).params = s.params := rfl
@[simp] theorem State.explicitReset_runState (s : State) : s.explicitReset.runState = .stopped := rfl
@[simp] theorem State.explicitReset_icount (s : State) : s.explicitReset.icount = 0 := rfl
@[simp] theorem State.explicitReset_pc (s : State) : s.explicitReset.pc = s.resetCore.pc := rfl
@[simp] theorem State.explicitReset_regs (s : State) : s.explicitReset.regs = s.resetCore.regs := rfl

/-! ## Register write -/

@[simp] theorem State.writeReg_pc (s : State) (i : Reg) (v : Word) : (s.writeReg i v).pc = s.pc := by
  unfold State.writeReg; split <;> rfl
@[simp] theorem State.writeReg_mem (s : State) (i : Reg) (v : Word) : (s.writeReg i v).mem = s.mem := by
  unfold State.writeReg; split <;> rfl
@[simp] theorem State.writeReg_runState (s : State) (i : Reg) (v : Word) : (s.writeReg i v).runState = s.runState := by
  unfold State.writeReg; split <;> rfl
@[simp] theorem State.writeReg_icount (s : State) (i : Reg) (v : Word) : (s.writeReg i v).icount = s.icount := by
  unfold State.writeReg; split <;> rfl
@[simp] theorem State.writeReg_crashed (s : State) (i : Reg) (v : Word) : (s.writeReg i v).crashed = s.crashed := by
  unfold State.writeReg; split <;> rfl
@[simp] theorem State.writeReg_params (s : State) (i : Reg) (v : Word) : (s.writeReg i v).params = s.params := by
  unfold State.writeReg; split <;> rfl

@[simp] theorem State.writeReg_zero (s : State) (v : Word) : s.writeReg 0#5 v = s := rfl

theorem State.writeReg_regs (s : State) (i : Reg) (v : Word) (h : i ≠ 0#5) :
    (s.writeReg i v).regs = s.regs.set i.toNat v i.isLt := by
  simp [State.writeReg, h]

/-- Slot 0 of the register file is never written (10_state R23, R24). -/
@[simp] theorem State.writeReg_regs_zero (s : State) (i : Reg) (v : Word) : (s.writeReg i v).regs[0] = s.regs[0] := by
  by_cases h : i = 0#5
  · simp [h]
  · have : i.toNat ≠ 0 := fun e => h (BitVec.eq_of_toNat_eq (by simpa using e))
    simp [State.writeReg_regs s i v h, this]

@[simp] theorem State.readReg_zero (s : State) : s.readReg 0#5 = 0#32 := rfl

/-- Reads depend on the register file alone. -/
theorem State.readReg_congr {s t : State} (h : t.regs = s.regs) (j : Reg) : t.readReg j = s.readReg j := by
  simp [State.readReg, h]

/-- What a read answers after a write (10_state R22, R23). -/
theorem State.readReg_writeReg (s : State) (i j : Reg) (v : Word) :
    (s.writeReg i v).readReg j = if j = i ∧ i ≠ 0#5 then v else s.readReg j := by
  by_cases hi : i = 0#5
  · simp [hi]
  · by_cases hj : j = 0#5
    · subst hj; simp [Ne.symm hi]
    · have hne : i.toNat = j.toNat ↔ j = i :=
        ⟨fun e => (BitVec.eq_of_toNat_eq e).symm, fun e => by rw [e]⟩
      simp [State.readReg, hj, State.writeReg_regs s i v hi, Vector.getElem_set, hi, hne]

@[simp] theorem State.readReg_setPc (s : State) (v : Word) (j : Reg) : (s.setPc v).readReg j = s.readReg j := rfl
@[simp] theorem State.readReg_advance (s : State) (j : Reg) : s.advance.readReg j = s.readReg j := rfl
@[simp] theorem State.readReg_countStep (s : State) (j : Reg) : s.countStep.readReg j = s.readReg j := rfl

/-! ## Commit and retire -/

@[simp] theorem State.commit_mem (s : State) (rd : Reg) (v p : Word) : (s.commit rd v p).mem = s.mem := by
  simp [State.commit]
@[simp] theorem State.commit_runState (s : State) (rd : Reg) (v p : Word) : (s.commit rd v p).runState = s.runState := by
  simp [State.commit]
@[simp] theorem State.commit_icount (s : State) (rd : Reg) (v p : Word) : (s.commit rd v p).icount = s.icount := by
  simp [State.commit]
@[simp] theorem State.commit_crashed (s : State) (rd : Reg) (v p : Word) : (s.commit rd v p).crashed = s.crashed := by
  simp [State.commit]
@[simp] theorem State.commit_params (s : State) (rd : Reg) (v p : Word) : (s.commit rd v p).params = s.params := by
  simp [State.commit]
@[simp] theorem State.commit_pc (s : State) (rd : Reg) (v p : Word) : (s.commit rd v p).pc = p := rfl
@[simp] theorem State.commit_regs_zero (s : State) (rd : Reg) (v p : Word) : (s.commit rd v p).regs[0] = s.regs[0] := by
  simp [State.commit]
theorem State.readReg_commit (s : State) (rd j : Reg) (v p : Word) :
    (s.commit rd v p).readReg j = if j = rd ∧ rd ≠ 0#5 then v else s.readReg j := by
  simp [State.commit, State.readReg_writeReg]

/-! ## Traps -/

/-- A trap touches the run state and the crashed mark only (60_exceptions R244 to R246). -/
@[simp] theorem State.takeTrap_regs (s : State) (e : Trap) : (s.takeTrap e).regs = s.regs := by
  cases e <;> rfl
@[simp] theorem State.takeTrap_pc (s : State) (e : Trap) : (s.takeTrap e).pc = s.pc := by
  cases e <;> rfl
@[simp] theorem State.takeTrap_mem (s : State) (e : Trap) : (s.takeTrap e).mem = s.mem := by
  cases e <;> rfl
@[simp] theorem State.takeTrap_icount (s : State) (e : Trap) : (s.takeTrap e).icount = s.icount := by
  cases e <;> rfl
@[simp] theorem State.takeTrap_params (s : State) (e : Trap) : (s.takeTrap e).params = s.params := by
  cases e <;> rfl
@[simp] theorem State.readReg_takeTrap (s : State) (e : Trap) (j : Reg) : (s.takeTrap e).readReg j = s.readReg j :=
  State.readReg_congr (by simp) j
@[simp] theorem State.takeTrap_fatal_crashed (s : State) (f : Fault) : (s.takeTrap (.fatal f)).crashed = true := rfl
@[simp] theorem State.takeTrap_fatal_runState (s : State) (f : Fault) : (s.takeTrap (.fatal f)).runState = s.runState := rfl
@[simp] theorem State.takeTrap_invalid_runState (s : State) (w : Word) :
    (s.takeTrap (.invalidInstruction w)).runState = .aborted := rfl
@[simp] theorem State.takeTrap_invalid_crashed (s : State) (w : Word) :
    (s.takeTrap (.invalidInstruction w)).crashed = s.crashed := rfl
@[simp] theorem State.takeTrap_ebreak_runState (s : State) :
    (s.takeTrap .ebreak).runState = if s.readReg 10#5 = 0#32 then .ended else .aborted := rfl
@[simp] theorem State.takeTrap_ebreak_crashed (s : State) : (s.takeTrap .ebreak).crashed = s.crashed := rfl

/-! ## Reset -/

@[simp] theorem State.resetCore_pc (s : State) :
    s.resetCore.pc = s.params.memBase + BitVec.ofNat 32 s.params.resetOffset := rfl
@[simp] theorem State.resetCore_regs (s : State) : s.resetCore.regs = s.regs.set 0 0#32 := rfl
@[simp] theorem State.readReg_resetCore (s : State) (j : Reg) : s.resetCore.readReg j = s.readReg j := by
  by_cases hj : j = 0#5
  · simp [hj]
  · have : (0 : Nat) ≠ j.toNat := fun e => hj (BitVec.eq_of_toNat_eq (by simpa using e.symm))
    simp [State.readReg, hj, this]
@[simp] theorem State.readReg_explicitReset (s : State) (j : Reg) : s.explicitReset.readReg j = s.readReg j :=
  State.readReg_resetCore s j

end Sys2Proof.Machine
end

