-- ==== Sys2Proof/Laws/Memory.lean ====
section
/-! SUPPORT. Memory as data (read after write, the canonical form), bytes and values, and everything the memory unit's
two operations can answer. -/

namespace Sys2Proof.Machine

/-! ## One byte -/

/-- The law of one byte: the written address reads the byte, every other address reads as before. -/
theorem Memory.read_write (m : Memory) (lo a b : Nat) (v : Byte) (h : m.wfFrom lo = true) :
    (m.write a v).read b = if b = a then v else m.read b := by
  induction m generalizing lo with
  | nil => simp only [Memory.write]; split <;> simp_all [Memory.read]
  | cons c m ih =>
    obtain ⟨k, x⟩ := c
    simp only [Memory.wfFrom, Bool.and_eq_true, decide_eq_true_eq] at h
    obtain ⟨⟨hlo, hx⟩, hm⟩ := h
    have gone : ∀ (m : Memory) (l b : Nat), m.wfFrom l = true → b < l → m.read b = Config.unlistedByte := by
      intro m
      induction m with
      | nil => intros; rfl
      | cons c m ih =>
        intro l b hw hb
        obtain ⟨k, x⟩ := c
        simp only [Memory.wfFrom, Bool.and_eq_true, decide_eq_true_eq] at hw
        simp only [Memory.read]
        rw [if_neg (by omega)]
        exact ih (k + 1) b hw.2 (by omega)
    simp only [Memory.write]
    by_cases h1 : a < k
    · rw [if_pos h1]
      by_cases hv : v = Config.unlistedByte
      · rw [if_pos hv]
        by_cases hb : b = a
        · subst hb
          simp only [Memory.read, if_true]
          rw [if_neg (by omega), gone m (k + 1) b hm (by omega), hv]
        · simp [hb]
      · rw [if_neg hv]; simp [Memory.read]
    · rw [if_neg h1]
      by_cases h2 : a = k
      · subst h2
        rw [if_pos rfl]
        by_cases hv : v = Config.unlistedByte
        · rw [if_pos hv]
          by_cases hb : b = a
          · subst hb; rw [if_pos rfl, gone m (b + 1) b hm (by omega), hv]
          · simp [Memory.read, hb]
        · rw [if_neg hv]
          by_cases hb : b = a <;> simp [Memory.read, hb]
      · rw [if_neg h2]
        simp only [Memory.read]
        by_cases hb : b = k
        · subst hb; simp [Ne.symm h2]
        · simp only [hb, if_false]; exact ih (k + 1) hm

/-- A write keeps the canonical form. -/
theorem Memory.wfFrom_write (m : Memory) (lo a : Nat) (v : Byte) (h : m.wfFrom lo = true) (ha : lo ≤ a) :
    (m.write a v).wfFrom lo = true := by
  induction m generalizing lo with
  | nil => simp only [Memory.write]; split <;> simp_all [Memory.wfFrom]
  | cons c m ih =>
    obtain ⟨k, x⟩ := c
    simp only [Memory.wfFrom, Bool.and_eq_true, decide_eq_true_eq] at h
    obtain ⟨⟨hlo, hx⟩, hm⟩ := h
    have weaken : ∀ (m : Memory) (l l' : Nat), m.wfFrom l = true → l' ≤ l → m.wfFrom l' = true := by
      intro m l l' hw hl
      cases m with
      | nil => rfl
      | cons c m =>
        simp only [Memory.wfFrom, Bool.and_eq_true, decide_eq_true_eq] at hw ⊢
        exact ⟨⟨by omega, hw.1.2⟩, hw.2⟩
    simp only [Memory.write]
    by_cases h1 : a < k
    · rw [if_pos h1]
      split
      · simp [Memory.wfFrom, hlo, hx, hm]
      · rename_i hv
        simp [Memory.wfFrom, ha, hx, hm, hv]; omega
    · rw [if_neg h1]
      by_cases h2 : a = k
      · subst h2
        rw [if_pos rfl]
        split
        · exact weaken m (a + 1) lo hm (by omega)
        · rename_i hv; simp [Memory.wfFrom, hlo, hv, hm]
      · rw [if_neg h2]
        simp [Memory.wfFrom, hlo, hx, ih (k + 1) hm (by omega)]

/-- What a memory lists after a write: only what it listed, or the written address. -/
theorem Memory.mem_write (m : Memory) (a : Nat) (v : Byte) (c : Host.Cell) (h : c ∈ m.write a v) : c ∈ m ∨ c.1 = a := by
  induction m with
  | nil => simp only [Memory.write] at h; split at h <;> simp_all
  | cons d m ih =>
    obtain ⟨k, x⟩ := d
    simp only [Memory.write] at h
    split at h
    · split at h <;> simp_all; aesop
    · split at h
      · split at h
        · exact .inl (by simp [h])
        · rcases List.mem_cons.1 h with h | h
          · exact .inr (by rw [h])
          · exact .inl (by simp [h])
      · rcases List.mem_cons.1 h with h | h
        · exact .inl (by simp [h])
        · rcases ih h with h | h
          · exact .inl (by simp [h])
          · exact .inr h

/-! ## Several bytes -/

theorem Memory.wf_writeBytes (m : Memory) (a : Nat) (bs : List Byte) (h : m.wf = true) :
    (m.writeBytes a bs).wf = true := by
  induction bs generalizing m a with
  | nil => exact h
  | cons b bs ih => exact ih _ _ (Memory.wfFrom_write m 0 a b h (Nat.zero_le a))

/-- The law of several bytes: inside the written range the bytes written, outside what was there. -/
theorem Memory.read_writeBytes (m : Memory) (a b : Nat) (bs : List Byte) (h : m.wf = true) :
    (m.writeBytes a bs).read b = if hb : a ≤ b ∧ b < a + bs.length then bs[b - a]'(by omega) else m.read b := by
  induction bs generalizing m a with
  | nil => simp [Memory.writeBytes]
  | cons x bs ih =>
    have hw : (m.write a x).wf = true := Memory.wfFrom_write m 0 a x h (Nat.zero_le a)
    simp only [Memory.writeBytes, ih (m.write a x) (a + 1) hw, Memory.read_write m 0 a b x h, List.length_cons]
    by_cases h1 : a + 1 ≤ b ∧ b < a + 1 + bs.length
    · have h2 : a ≤ b ∧ b < a + (bs.length + 1) := by omega
      rw [dif_pos h1, dif_pos h2]
      have : b - a = (b - (a + 1)) + 1 := by omega
      simp [this]
    · rw [dif_neg h1]
      by_cases h3 : b = a
      · subst h3; simp
      · rw [if_neg h3, dif_neg (by omega)]

theorem Memory.mem_writeBytes (m : Memory) (a : Nat) (bs : List Byte) (c : Host.Cell) (h : c ∈ m.writeBytes a bs) :
    c ∈ m ∨ (a ≤ c.1 ∧ c.1 < a + bs.length) := by
  induction bs generalizing m a with
  | nil => exact .inl h
  | cons b bs ih =>
    rcases ih _ _ h with h | h
    · rcases Memory.mem_write m a b c h with h | h
      · exact .inl h
      · exact .inr (by simp; omega)
    · exact .inr (by simp; omega)

@[simp] theorem Memory.length_bytes (m : Memory) (a n : Nat) : (m.bytes a n).length = n := by
  induction n generalizing a with
  | zero => rfl
  | succ n ih => simp [Memory.bytes, ih]

theorem Memory.getElem_bytes (m : Memory) (a n i : Nat) (h : i < n) :
    (m.bytes a n)[i]'(by simpa using h) = m.read (a + i) := by
  induction n generalizing a i with
  | zero => omega
  | succ n ih =>
    cases i with
    | zero => simp [Memory.bytes]
    | succ i => simp [Memory.bytes, ih (a + 1) i (by omega), Nat.add_assoc, Nat.add_comm 1 i]

/-! ## Bytes and values -/

@[simp] theorem length_leBytes (n v : Nat) : (leBytes n v).length = n := by
  induction n generalizing v with
  | zero => rfl
  | succ n ih => simp [leBytes, ih]

theorem getElem_leBytes (n v i : Nat) (h : i < n) :
    (leBytes n v)[i]'(by simpa using h) = BitVec.ofNat 8 (v / 256 ^ i) := by
  induction n generalizing v i with
  | zero => omega
  | succ n ih =>
    cases i with
    | zero => simp [leBytes]
    | succ i =>
      simp only [leBytes, List.getElem_cons_succ, ih (v / 256) i (by omega)]
      rw [Nat.div_div_eq_div_mul, pow_succ, Nat.mul_comm]

/-- Little-endian bytes put together again give the value cut to their number (20_memory R56). -/
@[simp] theorem leValue_leBytes (n v : Nat) : leValue (leBytes n v) = v % 256 ^ n := by
  induction n generalizing v with
  | zero => simp [leBytes, leValue, Nat.mod_one]
  | succ n ih =>
    have hb : (BitVec.ofNat 8 v).toNat = v % 256 := by simp
    rw [leBytes, leValue, ih, hb, pow_succ, Nat.mul_comm (256 ^ n) 256, Nat.mod_mul]

theorem leValue_lt (bs : List Byte) : leValue bs < 256 ^ bs.length := by
  induction bs with
  | nil => simp [leValue]
  | cons b bs ih =>
    have := b.isLt
    simp only [leValue, List.length_cons, pow_succ]
    omega

/-! ## The memory unit -/

/-- A check passes exactly on a valid length in range, and otherwise says which fault (20_memory R52, R53). -/
theorem State.checkAccess_ok_iff (s : State) (a : Word) (n : Nat) :
    s.checkAccess a n = .ok () ↔ validLength n ∧ InRange s.params a.toNat n := by
  unfold State.checkAccess
  by_cases h : validLength n
  · by_cases h' : InRange s.params a.toNat n
    · rw [if_neg (not_not.2 h), if_neg (not_not.2 h')]; exact ⟨fun _ => ⟨h, h'⟩, fun _ => rfl⟩
    · rw [if_neg (not_not.2 h), if_pos h']; exact ⟨nofun, fun e => absurd e.2 h'⟩
  · rw [if_pos h]; exact ⟨nofun, fun e => absurd e.1 h⟩

theorem State.checkAccess_of_valid (s : State) (a : Word) (n : Nat) (h : validLength n) :
    s.checkAccess a n = if InRange s.params a.toNat n then .ok () else .error (.memFault a n) := by
  unfold State.checkAccess
  by_cases h' : InRange s.params a.toNat n
  · rw [if_neg (not_not.2 h), if_neg (not_not.2 h'), if_pos h']
  · rw [if_neg (not_not.2 h), if_pos h', if_neg h']

/-- All that `MemRead` of a valid length can answer. -/
theorem State.memRead_eq (s : State) (a : Word) (n : Nat) (h : validLength n) :
    s.memRead a n =
      if InRange s.params a.toNat n then .ok (leValue (s.mem.bytes a.toNat n)) else .error (.memFault a n) := by
  rw [State.memRead, State.checkAccess_of_valid s a n h]
  by_cases h' : InRange s.params a.toNat n
  · rw [if_pos h', if_pos h']
  · rw [if_neg h', if_neg h']

/-- All that `MemWrite` of a valid length can answer. -/
theorem State.memWrite_eq (s : State) (a : Word) (n v : Nat) (h : validLength n) :
    s.memWrite a n v =
      if InRange s.params a.toNat n then .ok { s with mem := s.mem.writeBytes a.toNat (leBytes n v) }
      else .error (.memFault a n) := by
  rw [State.memWrite, State.checkAccess_of_valid s a n h]
  by_cases h' : InRange s.params a.toNat n
  · rw [if_pos h', if_pos h']
  · rw [if_neg h', if_neg h']

/-- A successful write of any length: what the new state is. -/
theorem State.memWrite_ok {s t : State} {a : Word} {n v : Nat} (h : s.memWrite a n v = .ok t) :
    validLength n ∧ InRange s.params a.toNat n ∧ t = { s with mem := s.mem.writeBytes a.toNat (leBytes n v) } := by
  unfold State.memWrite at h
  split at h
  · cases h
  · rename_i hc
    have := (State.checkAccess_ok_iff s a n).1 hc
    cases h
    exact ⟨this.1, this.2, rfl⟩

/-- A fetch in range gives the word of the four bytes at the pc. -/
theorem State.fetch_eq (s : State) :
    s.fetch = if InRange s.params s.pc.toNat 4 then .ok (BitVec.ofNat 32 (leValue (s.mem.bytes s.pc.toNat 4)))
      else .error (.memFault s.pc 4) := by
  rw [State.fetch, State.memRead_eq s s.pc 4 (.inr (.inr (.inl rfl)))]
  by_cases h' : InRange s.params s.pc.toNat 4
  · rw [if_pos h', if_pos h']
  · rw [if_neg h', if_neg h']

end Sys2Proof.Machine
end

