-- ==== Sys2Proof/Laws/Exec.lean ====
section
/-! SUPPORT. Everything each shared operation of the meanings can do, said once, and from that everything an
instruction can do (`exec_cases`). -/

namespace Sys2Proof.Machine

/-! ## The shared operations -/

/-- A commit changes the destination register and the pc, and nothing else. -/
theorem retired_commit (s : State) (rd : Reg) (v p : Word) : Retired s (s.commit rd v p) rd v p :=
  ⟨fun j => State.readReg_commit s rd j v p, rfl, fun a => by simp, by simp [SameMonitor]⟩

/-- The same for the default next pc. -/
theorem retired_retire (s : State) (rd : Reg) (v : Word) : Retired s (s.retire rd v) rd v (s.pc + 4#32) :=
  retired_commit s rd v _

/-- A new pc changes nothing else. -/
theorem jumped_setPc (s : State) (p : Word) : Jumped s (s.setPc p) p :=
  ⟨fun _ => rfl, rfl, fun _ => rfl, rfl, rfl, rfl, rfl⟩

/-- All that a branch can do. -/
theorem branchIf_eq (c : Bool) (imm : Word) (s : State) :
    branchIf c imm s = .next (s.setPc (if c then s.pc + imm else s.pc + 4#32)) := by
  cases c <;> rfl

/-- All that a load can do. -/
theorem load_eq (n : Nat) (ext : Nat → Word) (rd rs1 : Reg) (imm : Word) (s : State) (h : validLength n) :
    load n ext rd rs1 imm s =
      if InRange s.params (s.effAddr rs1 imm).toNat n then
        .next (s.retire rd (ext (leValue (s.mem.bytes (s.effAddr rs1 imm).toNat n))))
      else .fault (.memFault (s.effAddr rs1 imm) n) := by
  rw [load, State.memRead_eq s _ n h]
  by_cases h' : InRange s.params (s.effAddr rs1 imm).toNat n
  · rw [if_pos h', if_pos h']
  · rw [if_neg h', if_neg h']

/-- All that a store can do. -/
theorem store_eq (n : Nat) (rs1 rs2 : Reg) (imm : Word) (s : State) (h : validLength n) :
    store n rs1 rs2 imm s =
      if InRange s.params (s.effAddr rs1 imm).toNat n then
        .next (State.advance
          { s with mem := s.mem.writeBytes (s.effAddr rs1 imm).toNat (leBytes n (s.readReg rs2).toNat) })
      else .fault (.memFault (s.effAddr rs1 imm) n) := by
  rw [store, State.memWrite_eq s _ n _ h]
  by_cases h' : InRange s.params (s.effAddr rs1 imm).toNat n
  · rw [if_pos h', if_pos h']
  · rw [if_neg h', if_neg h']

/-- All that a division can do. -/
theorem divide_eq (c : Option DivCorner) (cr : DivCorner → Word) (v : Word) (rd : Reg) (s : State) :
    divide c cr v rd s =
      match c, s.params.divPolicy with
      | none, _ => .next (s.retire rd v)
      | some k, .riscv => .next (s.retire rd (cr k))
      | some _, .fatal => .fault .divFault := by
  rcases c with _ | c
  · rfl
  · rw [divide]; cases s.params.divPolicy <;> rfl

theorem divide_next {c : Option DivCorner} {cr : DivCorner → Word} {v : Word} {rd : Reg} {s t : State}
    (h : divide c cr v rd s = .next t) : ∃ x, t = s.retire rd x := by
  rw [divide_eq] at h
  split at h
  · cases h; exact ⟨_, rfl⟩
  · cases h; exact ⟨_, rfl⟩
  · cases h

theorem load_next {n : Nat} {ext : Nat → Word} {rd rs1 : Reg} {imm : Word} {s t : State}
    (h : load n ext rd rs1 imm s = .next t) : ∃ x, t = s.retire rd x := by
  unfold load at h
  split at h
  · cases h
  · cases h; exact ⟨_, rfl⟩

theorem store_next {n : Nat} {rs1 rs2 : Reg} {imm : Word} {s t : State} (h : store n rs1 rs2 imm s = .next t) :
    ∃ u, s.memWrite (s.effAddr rs1 imm) n (s.readReg rs2).toNat = .ok u ∧ t = u.advance := by
  unfold store at h
  split at h
  · cases h
  · rename_i u hu; cases h; exact ⟨u, hu, rfl⟩

/-! ## What an instruction can do -/

/-- The pc that an instruction's next state can have: the default one, the pc plus an immediate that is even if the
instruction is well formed, or a sum with its low bit cleared. -/
def NextPc (s : State) (i : Instr) (p : Word) : Prop :=
  p = s.pc + 4#32 ∨ (∃ imm : Word, p = s.pc + imm ∧ (i.wellFormed = true → imm.toNat % 2 = 0)) ∨
    ∃ rs1 imm, p = s.jalrTarget rs1 imm

/-- Every next state of every instruction: a destination register and the pc, the pc alone, stored bytes and the pc, or
the Ebreak trap. -/
theorem exec_cases {i : Instr} {s t : State} (h : exec i s = .next t) :
    (∃ rd v p, destOf i = some rd ∧ storesTo s i = none ∧ NextPc s i p ∧ t = s.commit rd v p) ∨
    (∃ p, destOf i = none ∧ storesTo s i = none ∧ NextPc s i p ∧ t = s.setPc p) ∨
    (∃ a n v u, destOf i = none ∧ storesTo s i = some (a, n) ∧ s.memWrite a n v = .ok u ∧ t = u.advance) ∨
    (i = .ebreak ∧ t = s.takeTrap .ebreak) := by
  have ret : ∀ {rd : Reg} {x : Word}, destOf i = some rd → storesTo s i = none → t = s.retire rd x →
      ∃ rd v p, destOf i = some rd ∧ storesTo s i = none ∧ NextPc s i p ∧ t = s.commit rd v p :=
    fun hd hs ht => ⟨_, _, _, hd, hs, .inl rfl, ht⟩
  have br : ∀ {c : Bool} {imm : Word}, destOf i = none → storesTo s i = none →
      (i.wellFormed = true → imm.toNat % 2 = 0) → branchIf c imm s = .next t →
      ∃ p, destOf i = none ∧ storesTo s i = none ∧ NextPc s i p ∧ t = s.setPc p := by
    intro c imm hd hs hw hb
    rw [branchIf_eq] at hb
    cases hb
    cases c
    · exact ⟨_, hd, hs, .inl rfl, rfl⟩
    · exact ⟨_, hd, hs, .inr (.inl ⟨imm, rfl, hw⟩), rfl⟩
  have evenB : ∀ {imm : Word}, fitsImmB imm = true → imm.toNat % 2 = 0 := by
    intro imm hw; simp only [fitsImmB, decide_eq_true_eq] at hw; exact hw.2.2
  cases i with
  | jal rd imm =>
    cases h
    refine .inl ⟨rd, _, _, rfl, rfl, .inr (.inl ⟨imm, rfl, fun hw => ?_⟩), rfl⟩
    simp only [Instr.wellFormed, fitsImmJ, decide_eq_true_eq] at hw
    exact hw.2.2
  | jalr rd rs1 imm => cases h; exact .inl ⟨rd, _, _, rfl, rfl, .inr (.inr ⟨rs1, imm, rfl⟩), rfl⟩
  | beq => exact .inr (.inl (br rfl rfl evenB h))
  | bne => exact .inr (.inl (br rfl rfl evenB h))
  | blt => exact .inr (.inl (br rfl rfl evenB h))
  | bge => exact .inr (.inl (br rfl rfl evenB h))
  | bltu => exact .inr (.inl (br rfl rfl evenB h))
  | bgeu => exact .inr (.inl (br rfl rfl evenB h))
  | lb => exact .inl (ret rfl rfl (load_next h).choose_spec)
  | lh => exact .inl (ret rfl rfl (load_next h).choose_spec)
  | lw => exact .inl (ret rfl rfl (load_next h).choose_spec)
  | lbu => exact .inl (ret rfl rfl (load_next h).choose_spec)
  | lhu => exact .inl (ret rfl rfl (load_next h).choose_spec)
  | sb => obtain ⟨u, hu, ht⟩ := store_next h; exact .inr (.inr (.inl ⟨_, _, _, u, rfl, rfl, hu, ht⟩))
  | sh => obtain ⟨u, hu, ht⟩ := store_next h; exact .inr (.inr (.inl ⟨_, _, _, u, rfl, rfl, hu, ht⟩))
  | sw => obtain ⟨u, hu, ht⟩ := store_next h; exact .inr (.inr (.inl ⟨_, _, _, u, rfl, rfl, hu, ht⟩))
  | div => exact .inl (ret rfl rfl (divide_next h).choose_spec)
  | divu => exact .inl (ret rfl rfl (divide_next h).choose_spec)
  | rem => exact .inl (ret rfl rfl (divide_next h).choose_spec)
  | remu => exact .inl (ret rfl rfl (divide_next h).choose_spec)
  | ebreak => cases h; exact .inr (.inr (.inr ⟨rfl, rfl⟩))
  | _ => cases h; exact .inl (ret rfl rfl rfl)

/-- The faults an instruction can meet (60_exceptions R242). -/
theorem exec_fault {i : Instr} {s : State} {f : Fault} (h : exec i s = .fault f) :
    f = .divFault ∨ ∃ a n, f = .memFault a n := by
  have ld : ∀ {n ext rd rs1 imm}, validLength n → load n ext rd rs1 imm s = .fault f → ∃ a n, f = .memFault a n := by
    intro n ext rd rs1 imm hn hl
    rw [load_eq _ _ _ _ _ _ hn] at hl
    split at hl <;> cases hl
    exact ⟨_, _, rfl⟩
  have st : ∀ {n rs1 rs2 imm}, validLength n → store n rs1 rs2 imm s = .fault f → ∃ a n, f = .memFault a n := by
    intro n rs1 rs2 imm hn hl
    rw [store_eq _ _ _ _ _ hn] at hl
    split at hl <;> cases hl
    exact ⟨_, _, rfl⟩
  have dv : ∀ {c cr v rd}, divide c cr v rd s = .fault f → f = .divFault := by
    intro c cr v rd hl
    rw [divide_eq] at hl
    split at hl <;> cases hl
    rfl
  have br : ∀ {c imm}, branchIf c imm s = .fault f → False := by
    intro c imm hb; rw [branchIf_eq] at hb; cases hb
  cases i with
  | beq => exact (br h).elim
  | bne => exact (br h).elim
  | blt => exact (br h).elim
  | bge => exact (br h).elim
  | bltu => exact (br h).elim
  | bgeu => exact (br h).elim
  | lb => exact .inr (ld (.inl rfl) h)
  | lbu => exact .inr (ld (.inl rfl) h)
  | lh => exact .inr (ld (.inr (.inl rfl)) h)
  | lhu => exact .inr (ld (.inr (.inl rfl)) h)
  | lw => exact .inr (ld (.inr (.inr (.inl rfl))) h)
  | sb => exact .inr (st (.inl rfl) h)
  | sh => exact .inr (st (.inr (.inl rfl)) h)
  | sw => exact .inr (st (.inr (.inr (.inl rfl))) h)
  | div => exact .inl (dv h)
  | divu => exact .inl (dv h)
  | rem => exact .inl (dv h)
  | remu => exact .inl (dv h)
  | _ => cases h

/-- No meaning refuses. -/
theorem exec_ne_refused (i : Instr) (s : State) (r : Refusal) : exec i s ≠ .refused r := by
  have ld : ∀ {n ext rd rs1 imm}, load n ext rd rs1 imm s ≠ .refused r := by
    intro n ext rd rs1 imm hl; unfold load at hl; split at hl <;> cases hl
  have st : ∀ {n rs1 rs2 imm}, store n rs1 rs2 imm s ≠ .refused r := by
    intro n rs1 rs2 imm hl; unfold store at hl; split at hl <;> cases hl
  have dv : ∀ {c cr v rd}, divide c cr v rd s ≠ .refused r := by
    intro c cr v rd hl; rw [divide_eq] at hl; split at hl <;> cases hl
  have br : ∀ {c imm}, branchIf c imm s ≠ .refused r := by
    intro c imm hb; rw [branchIf_eq] at hb; cases hb
  intro h
  cases i with
  | beq => exact br h
  | bne => exact br h
  | blt => exact br h
  | bge => exact br h
  | bltu => exact br h
  | bgeu => exact br h
  | lb => exact ld h
  | lbu => exact ld h
  | lh => exact ld h
  | lhu => exact ld h
  | lw => exact ld h
  | sb => exact st h
  | sh => exact st h
  | sw => exact st h
  | div => exact dv h
  | divu => exact dv h
  | rem => exact dv h
  | remu => exact dv h
  | _ => cases h

end Sys2Proof.Machine
end

