-- ==== Sys2Proof/Laws/Launch.lean ====
section
/-! SUPPORT. Every operation on a memory keeps its canonical form, and the memory of a new machine has it; what the
filled memory of a launch reads. -/

namespace Sys2Proof.Machine

/-! ## The canonical form -/

theorem Memory.wf_nil : Memory.wf [] = true := rfl

/-- The memory at reset is canonical. -/
theorem State.reset_mem_wf : State.reset.mem.wf = true := rfl

theorem Memory.wf_write (m : Memory) (a : Nat) (v : Byte) (h : m.wf = true) : (m.write a v).wf = true :=
  Memory.wfFrom_write m 0 a v h (Nat.zero_le a)

theorem State.memWrite_wf {s t : State} {a : Word} {n v : Nat} (h : s.memWrite a n v = .ok t) (hw : s.mem.wf = true) :
    t.mem.wf = true := by
  obtain ⟨-, -, rfl⟩ := State.memWrite_ok h
  exact Memory.wf_writeBytes _ _ _ hw

/-- All that placing a word can do. -/
theorem State.placeWord_eq (s : State) (w : Word) :
    s.placeWord w =
      if InRange s.params s.pc.toNat 4 then { s with mem := s.mem.writeBytes s.pc.toNat (leBytes 4 w.toNat) } else s := by
  rw [State.placeWord, State.memWrite_eq s s.pc 4 _ (.inr (.inr (.inl rfl)))]
  by_cases h : InRange s.params s.pc.toNat 4
  · rw [if_pos h, if_pos h]
  · rw [if_neg h, if_neg h]

theorem State.placeWord_wf (s : State) (w : Word) (hw : s.mem.wf = true) : (s.placeWord w).mem.wf = true := by
  rw [State.placeWord_eq]
  split
  · exact Memory.wf_writeBytes _ _ _ hw
  · exact hw

/-- All that an image load can answer. -/
theorem State.loadImage_next {s t : State} {image : List Byte} (h : s.loadImage image = .next t) :
    s.crashed = false ∧ image.length ≤ s.params.memSize ∧
      t = { s with mem := s.mem.writeBytes s.params.memBase.toNat image } := by
  unfold State.loadImage at h
  split at h
  · cases h
  · split at h
    · cases h
    · cases h; exact ⟨by simp_all, by omega, rfl⟩

theorem State.loadImage_wf {s t : State} {image : List Byte} (h : s.loadImage image = .next t) (hw : s.mem.wf = true) :
    t.mem.wf = true := by
  obtain ⟨-, -, rfl⟩ := State.loadImage_next h
  exact Memory.wf_writeBytes _ _ _ hw

/-! ## The filled memory -/

theorem Memory.wfFrom_fill (filler : Nat → Byte) (lo a n : Nat) (h : lo ≤ a) :
    (Memory.fill filler a n).wfFrom lo = true := by
  induction n generalizing lo a with
  | zero => rfl
  | succ n ih =>
    simp only [Memory.fill]
    split
    · exact ih lo (a + 1) (by omega)
    · rename_i hv
      simp [Memory.wfFrom, h, hv, ih (a + 1) (a + 1) (Nat.le_refl _)]

theorem Memory.wf_fill (filler : Nat → Byte) (a n : Nat) : (Memory.fill filler a n).wf = true :=
  Memory.wfFrom_fill filler 0 a n (Nat.zero_le a)

/-- The filled memory lists addresses of the filled range only. -/
theorem Memory.mem_fill (filler : Nat → Byte) (a n : Nat) (c : Host.Cell) (h : c ∈ Memory.fill filler a n) :
    a ≤ c.1 ∧ c.1 < a + n := by
  induction n generalizing a with
  | zero => cases h
  | succ n ih =>
    simp only [Memory.fill] at h
    split at h
    · have := ih _ h; omega
    · rcases List.mem_cons.1 h with h | h
      · subst h; simp
      · have := ih _ h; omega

/-- What the filled memory reads: the filler in the range, the unlisted byte outside. -/
theorem Memory.read_fill (filler : Nat → Byte) (a n b : Nat) :
    (Memory.fill filler a n).read b = if a ≤ b ∧ b < a + n then filler b else Config.unlistedByte := by
  induction n generalizing a with
  | zero => simp [Memory.fill, Memory.read]
  | succ n ih =>
    simp only [Memory.fill]
    split
    · rename_i hv
      rw [ih]
      by_cases hb : b = a
      · subst hb; simp [hv]
      · simp only [show (a + 1 ≤ b ∧ b < a + 1 + n) = (a ≤ b ∧ b < a + (n + 1)) by apply propext; omega]
    · simp only [Memory.read, ih]
      by_cases hb : b = a
      · subst hb; simp
      · simp only [hb, if_false]
        simp only [show (a + 1 ≤ b ∧ b < a + 1 + n) = (a ≤ b ∧ b < a + (n + 1)) by apply propext; omega]

/-- The registers of a machine before its reset: x[0] zero, x[k + 1] the k-th given word. -/
theorem filledState_regs (p : Params) (filler : Nat → Byte) (regs0 : Vector Word 31) (k : Nat) (h : k < 31) :
    (filledState p filler regs0).regs[k + 1] = regs0[k] := by
  change (#v[0#32] ++ regs0)[k + 1] = regs0[k]
  rw [Vector.getElem_append_right (by omega) (by omega)]
  rfl

theorem readReg_filledState (p : Params) (filler : Nat → Byte) (regs0 : Vector Word 31) (k : Nat) (h : k < 31) :
    (filledState p filler regs0).readReg (BitVec.ofNat 5 (k + 1)) = regs0[k] := by
  have hk : (BitVec.ofNat 5 (k + 1)).toNat = k + 1 := by simp; omega
  have hn : BitVec.ofNat 5 (k + 1) ≠ 0#5 := by
    intro e; have := congrArg BitVec.toNat e; rw [hk] at this; simp at this
  rw [← filledState_regs p filler regs0 k h]
  simp only [State.readReg, hn, if_false, hk]

/-- Every machine that a launch makes: its parameters are legal, its image fits, and this is its state. -/
theorem start_next {p : Params} {image : Option (List Byte)} {filler : Nat → Byte} {regs0 : Vector Word 31} {t : State}
    (h : start p image filler regs0 = .next t) :
    p.wf = true ∧ (image.getD builtInImage).length ≤ p.memSize ∧
      t = State.explicitReset { filledState p filler regs0 with
        mem := (Memory.fill filler p.memBase.toNat p.memSize).writeBytes p.memBase.toNat (image.getD builtInImage) } := by
  unfold start at h
  split at h
  · cases h
  · rename_i hp
    split at h <;> cases h
    rename_i u hu
    obtain ⟨-, hl, rfl⟩ := State.loadImage_next hu
    exact ⟨by simpa using hp, hl, rfl⟩

/-- The memory of a new machine is canonical. -/
theorem start_mem_wf {p : Params} {image : Option (List Byte)} {filler : Nat → Byte} {regs0 : Vector Word 31} {t : State}
    (h : start p image filler regs0 = .next t) : t.mem.wf = true := by
  obtain ⟨-, -, rfl⟩ := start_next h
  exact Memory.wf_writeBytes _ _ _ (Memory.wf_fill _ _ _)

end Sys2Proof.Machine
end

