-- ==== Sys2Proof/Laws/Step.lean ====
section
/-! SUPPORT. Everything a step can do: the engine's outcomes and the Monitor's bookkeeping, said once. -/

namespace Sys2Proof.Machine

/-- The bytes at the pc, as a decoder of bytes reads them. -/
theorem ofNat_leValue (b0 b1 b2 b3 : Byte) : BitVec.ofNat 32 (leValue [b0, b1, b2, b3]) = wordOfBytes b0 b1 b2 b3 := by
  apply BitVec.eq_of_toNat_eq
  have h0 := b0.isLt; have h1 := b1.isLt; have h2 := b2.isLt; have h3 := b3.isLt
  have e : (wordOfBytes b0 b1 b2 b3).toNat =
      ((b3.toNat <<< 8 ||| b2.toNat) <<< 8 ||| b1.toNat) <<< 8 ||| b0.toNat := by
    change BitVec.toNat (b3 ++ b2 ++ b1 ++ b0) = _
    simp only [BitVec.toNat_append]
  rw [e, ← Nat.shiftLeft_add_eq_or_of_lt h0, ← Nat.shiftLeft_add_eq_or_of_lt h1, ← Nat.shiftLeft_add_eq_or_of_lt h2]
  simp only [Nat.shiftLeft_eq, BitVec.toNat_ofNat, leValue]
  omega

/-- All that a fetch can answer, in bytes (20_memory R60, 30_encoding R80). -/
theorem State.fetch_bytes (s : State) :
    s.fetch =
      if InRange s.params s.pc.toNat 4 then
        .ok (wordOfBytes (s.mem.read s.pc.toNat) (s.mem.read (s.pc.toNat + 1)) (s.mem.read (s.pc.toNat + 2))
          (s.mem.read (s.pc.toNat + 3)))
      else .error (.memFault s.pc 4) := by
  rw [State.fetch_eq]
  congr 2
  exact ofNat_leValue _ _ _ _

/-- Every next state of the engine: the trap of an invalid word, or the decoded instruction's. -/
theorem engineStep_cases {s u : State} (h : engineStep s = .next u) :
    ∃ w, s.fetch = .ok w ∧
      ((∃ e, decode w = .error e ∧ u = s.takeTrap (.invalidInstruction w)) ∨ ∃ i, decode w = .ok i ∧ exec i s = .next u) := by
  unfold engineStep at h
  split at h
  · cases h
  · rename_i w hw
    refine ⟨w, hw, ?_⟩
    split at h
    · rename_i e he; cases h; exact .inl ⟨e, he, rfl⟩
    · rename_i i hi; exact .inr ⟨i, hi, h⟩

theorem engineStep_ne_refused (s : State) (r : Refusal) : engineStep s ≠ .refused r := by
  unfold engineStep
  intro h
  split at h
  · cases h
  · split at h
    · cases h
    · exact exec_ne_refused _ _ _ h

/-- Every next state of a step. -/
theorem step_cases {s t : State} (h : step s = .next t) :
    s.crashed = false ∧
      ((s.runState.canRun = false ∧ t = s) ∨
       (s.runState.canRun = true ∧
         ((∃ f, engineStep s = .fault f ∧ t = s.takeTrap (.fatal f)) ∨
          ∃ u, engineStep s = .next u ∧ t = u.countStep))) := by
  unfold step monitorStep at h
  split at h
  · cases h
  · rename_i hc
    refine ⟨by simpa using hc, ?_⟩
    split at h
    · rename_i hr
      refine .inr ⟨hr, ?_⟩
      cases he : engineStep s with
      | next u => rw [he] at h; cases h; exact .inr ⟨u, rfl, rfl⟩
      | fault f => rw [he] at h; cases h; exact .inl ⟨f, rfl, rfl⟩
      | refused r => exact absurd he (engineStep_ne_refused s r)
    · rename_i hr; cases h; exact .inl ⟨by simpa using hr, rfl⟩

/-- A step that can run is the Monitor's treatment of the engine's outcome. -/
theorem step_of_canStep {s : State} (h : s.canStep) : step s = s.monitor (engineStep s) := by
  rw [step, monitorStep, if_neg (by simp [h.1]), if_pos h.2]

end Sys2Proof.Machine
end

