-- ==== Sys2Proof/Laws/Monitor.lean ====
section
/-! SUPPORT. The host's operations: how batches compose, when `execute` stops, what `examine` reads before an address it
cannot read, and the names that are none. -/

namespace Sys2Proof.Machine

/-! ## Batches -/

/-- A batch of a machine that is not Running, or crashed, is over. -/
theorem batch_of_not_running (n : Nat) (s : State) (h : ¬ (s.runState = .running ∧ s.crashed = false)) :
    batch n s = .next s := by
  cases n with
  | zero => rfl
  | succ n => rw [batch, if_neg h]

/-- A batch is its first steps and then the rest. -/
theorem batch_add (m n : Nat) (s : State) :
    batch (m + n) s =
      match batch m s with
      | .next t => batch n t
      | .fault f => .fault f
      | .refused r => .refused r := by
  induction m generalizing s with
  | zero => simp [batch]
  | succ m ih =>
    rw [show m + 1 + n = m + n + 1 by omega, batch, batch]
    by_cases h : s.runState = .running ∧ s.crashed = false
    · rw [if_pos h, if_pos h]
      cases step s with
      | next t => exact ih t
      | fault f => rfl
      | refused r => rfl
    · rw [if_neg h, if_neg h]
      exact (batch_of_not_running n s h).symm

/-- `execute` of a machine that can step, once its batch is known. -/
theorem execute_of_canStep {s t : State} (h : s.canStep) {n : Nat} (hb : batch n { s with runState := .running } = .next t) :
    execute n s = .next t.endBatch := by
  unfold execute
  simp only [if_neg (show ¬ s.crashed = true by simp [h.1]), if_pos h.2, hb]

/-- `execute` of a machine that lives and cannot run. -/
theorem execute_of_not_canRun {s : State} (hc : s.crashed = false) (hr : s.runState.canRun = false) (n : Nat) :
    execute n s = .next s := by
  simp [execute, hc, hr]

/-! ## Inspection -/

/-- `examine` past `n` words that are all in range: those words, then whatever it gives from there. -/
theorem examineFrom_append (s : State) (n m : Nat) (a : Word)
    (h : ∀ k, k < n → InRange s.params (a + BitVec.ofNat 32 (4 * k)).toNat 4) :
    ∃ ws : List Word, ws.length = n ∧
      (∀ (k : Nat) (h : k < ws.length), s.memRead (a + BitVec.ofNat 32 (4 * k)) 4 = .ok (ws[k]).toNat) ∧
      examineFrom (n + m) a s =
        ((examineFrom m (a + BitVec.ofNat 32 (4 * n)) s).1, ws ++ (examineFrom m (a + BitVec.ofNat 32 (4 * n)) s).2) := by
  induction n generalizing a with
  | zero => exact ⟨[], rfl, fun k h => absurd h (by simp), by simp⟩
  | succ n ih =>
    have hm := State.memRead_eq s a 4 (.inr (.inr (.inl rfl)))
    rw [if_pos (by simpa using h 0 (by omega))] at hm
    have next : ∀ k, a + 4#32 + BitVec.ofNat 32 (4 * k) = a + BitVec.ofNat 32 (4 * (k + 1)) := by
      intro k; apply BitVec.eq_of_toNat_eq; simp [BitVec.toNat_add]; omega
    obtain ⟨ws, hl, hw, he⟩ := ih (a + 4#32) (fun k hk => by rw [next]; exact h (k + 1) (by omega))
    have hlt := leValue_lt (s.mem.bytes a.toNat 4)
    rw [Memory.length_bytes] at hlt
    refine ⟨BitVec.ofNat 32 (leValue (s.mem.bytes a.toNat 4)) :: ws, by simp [hl], ?_, ?_⟩
    · intro k hk
      cases k with
      | zero =>
        rw [List.getElem_cons_zero, BitVec.toNat_ofNat, Nat.mod_eq_of_lt (by omega)]
        simpa using hm
      | succ k => rw [← next, List.getElem_cons_succ]; exact hw k (by simpa using hk)
    · rw [show n + 1 + m = n + m + 1 by omega, examineFrom, hm]
      simp only [he, next, List.cons_append]

/-- A name outside the list has no position in it. -/
theorem positionOf_eq_none {name : String} {names : List String} (h : name ∉ names) (k : Nat) :
    positionOf name names k = none := by
  induction names generalizing k with
  | nil => rfl
  | cons n ns ih =>
    rw [List.mem_cons, not_or] at h
    rw [positionOf, if_neg (fun e => h.1 e.symm), ih h.2]

end Sys2Proof.Machine
end

