-- ==== Sys2Proof/Laws/PerInstr.lean ====
section
/-! SUPPORT. The family TableRow: every instruction's encoding carries the fixed bits of its row of
spec/opcode_table.json (30_encoding R105), one lemma per constructor. -/

namespace Sys2Proof.Laws.TableRow

/-- The encoding of `i` matches the row of its mnemonic. -/
def Statement (i : Instr) : Prop := (rowOf i).matches (encode i) = true

/-- A word whose columns are known matches a row whose mask fixes the opcode. -/
theorem matches_opcode {r : OpcodeRow} {t : BitVec 7} {f2 f1 : BitVec 5} {f3 : BitVec 3} {l : BitVec 5} {op : BitVec 7}
    (hm : r.mask = 0x0000007f#32) (hb : assemble 0 0 0 0 0 op = r.bits) : r.matches (assemble t f2 f1 f3 l op) = true := by
  rw [OpcodeRow.matches, hm, assemble_and_opcode, hb]; exact decide_eq_true rfl

/-- The same for a mask that fixes opcode and funct3. -/
theorem matches_funct3 {r : OpcodeRow} {t : BitVec 7} {f2 f1 : BitVec 5} {f3 : BitVec 3} {l : BitVec 5} {op : BitVec 7}
    (hm : r.mask = 0x0000707f#32) (hb : assemble 0 0 0 f3 0 op = r.bits) : r.matches (assemble t f2 f1 f3 l op) = true := by
  rw [OpcodeRow.matches, hm, assemble_and_funct3, hb]; exact decide_eq_true rfl

/-- The same for a mask that fixes opcode, funct3 and funct7. -/
theorem matches_funct7 {r : OpcodeRow} {t : BitVec 7} {f2 f1 : BitVec 5} {f3 : BitVec 3} {l : BitVec 5} {op : BitVec 7}
    (hm : r.mask = 0xfe00707f#32) (hb : assemble t 0 0 f3 0 op = r.bits) : r.matches (assemble t f2 f1 f3 l op) = true := by
  rw [OpcodeRow.matches, hm, assemble_and_funct7, hb]; exact decide_eq_true rfl

theorem lui (rd : Reg) (imm : Word) : Statement (.lui rd imm) := matches_opcode rfl rfl
theorem auipc (rd : Reg) (imm : Word) : Statement (.auipc rd imm) := matches_opcode rfl rfl
theorem jal (rd : Reg) (imm : Word) : Statement (.jal rd imm) := matches_opcode rfl rfl
theorem jalr (rd rs1 : Reg) (imm : Word) : Statement (.jalr rd rs1 imm) := matches_funct3 rfl rfl
theorem beq (rs1 rs2 : Reg) (imm : Word) : Statement (.beq rs1 rs2 imm) := matches_funct3 rfl rfl
theorem bne (rs1 rs2 : Reg) (imm : Word) : Statement (.bne rs1 rs2 imm) := matches_funct3 rfl rfl
theorem blt (rs1 rs2 : Reg) (imm : Word) : Statement (.blt rs1 rs2 imm) := matches_funct3 rfl rfl
theorem bge (rs1 rs2 : Reg) (imm : Word) : Statement (.bge rs1 rs2 imm) := matches_funct3 rfl rfl
theorem bltu (rs1 rs2 : Reg) (imm : Word) : Statement (.bltu rs1 rs2 imm) := matches_funct3 rfl rfl
theorem bgeu (rs1 rs2 : Reg) (imm : Word) : Statement (.bgeu rs1 rs2 imm) := matches_funct3 rfl rfl
theorem lb (rd rs1 : Reg) (imm : Word) : Statement (.lb rd rs1 imm) := matches_funct3 rfl rfl
theorem lh (rd rs1 : Reg) (imm : Word) : Statement (.lh rd rs1 imm) := matches_funct3 rfl rfl
theorem lw (rd rs1 : Reg) (imm : Word) : Statement (.lw rd rs1 imm) := matches_funct3 rfl rfl
theorem lbu (rd rs1 : Reg) (imm : Word) : Statement (.lbu rd rs1 imm) := matches_funct3 rfl rfl
theorem lhu (rd rs1 : Reg) (imm : Word) : Statement (.lhu rd rs1 imm) := matches_funct3 rfl rfl
theorem sb (rs1 rs2 : Reg) (imm : Word) : Statement (.sb rs1 rs2 imm) := matches_funct3 rfl rfl
theorem sh (rs1 rs2 : Reg) (imm : Word) : Statement (.sh rs1 rs2 imm) := matches_funct3 rfl rfl
theorem sw (rs1 rs2 : Reg) (imm : Word) : Statement (.sw rs1 rs2 imm) := matches_funct3 rfl rfl
theorem addi (rd rs1 : Reg) (imm : Word) : Statement (.addi rd rs1 imm) := matches_funct3 rfl rfl
theorem slti (rd rs1 : Reg) (imm : Word) : Statement (.slti rd rs1 imm) := matches_funct3 rfl rfl
theorem sltiu (rd rs1 : Reg) (imm : Word) : Statement (.sltiu rd rs1 imm) := matches_funct3 rfl rfl
theorem xori (rd rs1 : Reg) (imm : Word) : Statement (.xori rd rs1 imm) := matches_funct3 rfl rfl
theorem ori (rd rs1 : Reg) (imm : Word) : Statement (.ori rd rs1 imm) := matches_funct3 rfl rfl
theorem andi (rd rs1 : Reg) (imm : Word) : Statement (.andi rd rs1 imm) := matches_funct3 rfl rfl
theorem slli (rd rs1 : Reg) (shamt : BitVec 5) : Statement (.slli rd rs1 shamt) := matches_funct7 rfl rfl
theorem srli (rd rs1 : Reg) (shamt : BitVec 5) : Statement (.srli rd rs1 shamt) := matches_funct7 rfl rfl
theorem srai (rd rs1 : Reg) (shamt : BitVec 5) : Statement (.srai rd rs1 shamt) := matches_funct7 rfl rfl
theorem add (rd rs1 rs2 : Reg) : Statement (.add rd rs1 rs2) := matches_funct7 rfl rfl
theorem sub (rd rs1 rs2 : Reg) : Statement (.sub rd rs1 rs2) := matches_funct7 rfl rfl
theorem sll (rd rs1 rs2 : Reg) : Statement (.sll rd rs1 rs2) := matches_funct7 rfl rfl
theorem slt (rd rs1 rs2 : Reg) : Statement (.slt rd rs1 rs2) := matches_funct7 rfl rfl
theorem sltu (rd rs1 rs2 : Reg) : Statement (.sltu rd rs1 rs2) := matches_funct7 rfl rfl
theorem xor (rd rs1 rs2 : Reg) : Statement (.xor rd rs1 rs2) := matches_funct7 rfl rfl
theorem srl (rd rs1 rs2 : Reg) : Statement (.srl rd rs1 rs2) := matches_funct7 rfl rfl
theorem sra (rd rs1 rs2 : Reg) : Statement (.sra rd rs1 rs2) := matches_funct7 rfl rfl
theorem or (rd rs1 rs2 : Reg) : Statement (.or rd rs1 rs2) := matches_funct7 rfl rfl
theorem and (rd rs1 rs2 : Reg) : Statement (.and rd rs1 rs2) := matches_funct7 rfl rfl
theorem mul (rd rs1 rs2 : Reg) : Statement (.mul rd rs1 rs2) := matches_funct7 rfl rfl
theorem mulh (rd rs1 rs2 : Reg) : Statement (.mulh rd rs1 rs2) := matches_funct7 rfl rfl
theorem mulhsu (rd rs1 rs2 : Reg) : Statement (.mulhsu rd rs1 rs2) := matches_funct7 rfl rfl
theorem mulhu (rd rs1 rs2 : Reg) : Statement (.mulhu rd rs1 rs2) := matches_funct7 rfl rfl
theorem div (rd rs1 rs2 : Reg) : Statement (.div rd rs1 rs2) := matches_funct7 rfl rfl
theorem divu (rd rs1 rs2 : Reg) : Statement (.divu rd rs1 rs2) := matches_funct7 rfl rfl
theorem rem (rd rs1 rs2 : Reg) : Statement (.rem rd rs1 rs2) := matches_funct7 rfl rfl
theorem remu (rd rs1 rs2 : Reg) : Statement (.remu rd rs1 rs2) := matches_funct7 rfl rfl
theorem ebreak : Statement .ebreak := rfl

end Sys2Proof.Laws.TableRow
end

