-- ==== Sys2Proof/Tests/Slice0.lean ====
section
/-! SUPPORT. The model's own tests. Expected values come from the spec: the worked examples of the instruction rules and
spec/95_test_vectors.md (family letters E, A, B, M, L, C, U, Y, X, R). The last part shows for every statement with
hypotheses a state and operands that meet them. -/

open Sys2Proof Sys2Proof.Machine

/-! ## Helpers -/

/-- The next state, if there is one. -/
def Sys2Proof.Tests.nextOf : Result → Option State
  | .next t => some t
  | .fault _ => none
  | .refused _ => none

/-- Registers given values. -/
def Sys2Proof.Tests.withRegs : List (Reg × Word) → State → State
  | [], s => s
  | (r, v) :: l, s => Sys2Proof.Tests.withRegs l (s.writeReg r v)

/-- One step from reset of the word `w` at the reset pc, after giving registers values. -/
def Sys2Proof.Tests.run (regs : List (Reg × Word)) (w : Nat) : Option State :=
  Sys2Proof.Tests.nextOf (step ((Sys2Proof.Tests.withRegs regs State.reset).withFetchWord 32 w))

/-- The same with five data bytes at 0x80000100 (family L). -/
def Sys2Proof.Tests.runData (regs : List (Reg × Word)) (w : Nat) : Option State :=
  Sys2Proof.Tests.nextOf (step (State.withFetchWord
    { Sys2Proof.Tests.withRegs regs State.reset with
      mem := [(0x80000100, 0xF3#8), (0x80000101, 0xA2#8), (0x80000102, 0x91#8), (0x80000103, 0x80#8), (0x80000104, 0x7F#8)] }
    32 w))

/-- A register after a step. -/
def Sys2Proof.Tests.reg (o : Option State) (r : Reg) : Option Word := o.map fun t => t.readReg r

/-- Four bytes of memory after a step. -/
def Sys2Proof.Tests.bytes (o : Option State) (a : Nat) : Option (List Byte) := o.map fun t => t.mem.bytes a 4

/-- The pc after a step. -/
def Sys2Proof.Tests.pc (o : Option State) : Option Word := o.map State.pc

open Sys2Proof.Tests

/-! ## Ill-formed instructions are refused -/

theorem test_wellFormed_imm12_above : Instr.wellFormed (.addi 1#5 2#5 2048#32) = false := by decide
theorem test_wellFormed_imm12_below : Instr.wellFormed (.sw 1#5 2#5 (-2049#32)) = false := by decide
theorem test_wellFormed_immB_odd : Instr.wellFormed (.beq 1#5 2#5 3#32) = false := by decide
theorem test_wellFormed_immB_above : Instr.wellFormed (.bgeu 1#5 2#5 4096#32) = false := by decide
theorem test_wellFormed_immU_low : Instr.wellFormed (.lui 1#5 0x12345001#32) = false := by decide
theorem test_wellFormed_immJ_odd : Instr.wellFormed (.jal 1#5 1#32) = false := by decide
theorem test_wellFormed_immJ_below : Instr.wellFormed (.jal 1#5 (-1048578#32)) = false := by decide

/-! ## Decoding: a word of the spec for every constructor, and the ends of the immediates (family E) -/

theorem test_decode_lui : decode 0x123452B7#32 = .ok (.lui 5#5 0x12345000#32) := by decide
theorem test_decode_auipc : decode 0xFFFFF297#32 = .ok (.auipc 5#5 0xFFFFF000#32) := by decide
theorem test_decode_jal : decode 0xFFDFF06F#32 = .ok (.jal 0#5 (-4#32)) := by decide
theorem test_decode_jalr : decode 0xFFD280E7#32 = .ok (.jalr 1#5 5#5 (-3#32)) := by decide
theorem test_decode_beq : decode 0x00208463#32 = .ok (.beq 1#5 2#5 8#32) := by decide
theorem test_decode_bne : decode 0x00209463#32 = .ok (.bne 1#5 2#5 8#32) := by decide
theorem test_decode_blt : decode 0x0020C463#32 = .ok (.blt 1#5 2#5 8#32) := by decide
theorem test_decode_bge : decode 0x0020D463#32 = .ok (.bge 1#5 2#5 8#32) := by decide
theorem test_decode_bltu : decode 0x0020E463#32 = .ok (.bltu 1#5 2#5 8#32) := by decide
theorem test_decode_bgeu : decode 0x0020F463#32 = .ok (.bgeu 1#5 2#5 8#32) := by decide
theorem test_decode_lb : decode 0xFFF28503#32 = .ok (.lb 10#5 5#5 (-1#32)) := by decide
theorem test_decode_lh : decode 0x00129503#32 = .ok (.lh 10#5 5#5 1#32) := by decide
theorem test_decode_lw : decode 0xFFC2A503#32 = .ok (.lw 10#5 5#5 (-4#32)) := by decide
theorem test_decode_lbu : decode 0x0102C503#32 = .ok (.lbu 10#5 5#5 16#32) := by decide
theorem test_decode_lhu : decode 0x0022D503#32 = .ok (.lhu 10#5 5#5 2#32) := by decide
theorem test_decode_sb : decode 0xFE628FA3#32 = .ok (.sb 5#5 6#5 (-1#32)) := by decide
theorem test_decode_sh : decode 0x006290A3#32 = .ok (.sh 5#5 6#5 1#32) := by decide
theorem test_decode_sw : decode 0x7E62AFA3#32 = .ok (.sw 5#5 6#5 2047#32) := by decide
theorem test_decode_addi : decode 0x7FF08113#32 = .ok (.addi 2#5 1#5 2047#32) := by decide
theorem test_decode_slti : decode 0x8000A113#32 = .ok (.slti 2#5 1#5 (-2048#32)) := by decide
theorem test_decode_sltiu : decode 0xFFF03113#32 = .ok (.sltiu 2#5 0#5 (-1#32)) := by decide
theorem test_decode_xori : decode 0xFFF0C113#32 = .ok (.xori 2#5 1#5 (-1#32)) := by decide
theorem test_decode_ori : decode 0x7F00E113#32 = .ok (.ori 2#5 1#5 0x7F0#32) := by decide
theorem test_decode_andi : decode 0xFF00F113#32 = .ok (.andi 2#5 1#5 (-16#32)) := by decide
theorem test_decode_slli : decode 0x01F09113#32 = .ok (.slli 2#5 1#5 31#5) := by decide
theorem test_decode_srli : decode 0x0040D113#32 = .ok (.srli 2#5 1#5 4#5) := by decide
theorem test_decode_srai : decode 0x41E0D113#32 = .ok (.srai 2#5 1#5 30#5) := by decide
theorem test_decode_add : decode 0x002081B3#32 = .ok (.add 3#5 1#5 2#5) := by decide
theorem test_decode_sub : decode 0x402081B3#32 = .ok (.sub 3#5 1#5 2#5) := by decide
theorem test_decode_sll : decode 0x002091B3#32 = .ok (.sll 3#5 1#5 2#5) := by decide
theorem test_decode_slt : decode 0x0020A1B3#32 = .ok (.slt 3#5 1#5 2#5) := by decide
theorem test_decode_sltu : decode 0x002031B3#32 = .ok (.sltu 3#5 0#5 2#5) := by decide
theorem test_decode_xor : decode 0x0020C1B3#32 = .ok (.xor 3#5 1#5 2#5) := by decide
theorem test_decode_srl : decode 0x0020D1B3#32 = .ok (.srl 3#5 1#5 2#5) := by decide
theorem test_decode_sra : decode 0x4020D1B3#32 = .ok (.sra 3#5 1#5 2#5) := by decide
theorem test_decode_or : decode 0x0020E1B3#32 = .ok (.or 3#5 1#5 2#5) := by decide
theorem test_decode_and : decode 0x0020F1B3#32 = .ok (.and 3#5 1#5 2#5) := by decide
theorem test_decode_mul : decode 0x022081B3#32 = .ok (.mul 3#5 1#5 2#5) := by decide
theorem test_decode_mulh : decode 0x022091B3#32 = .ok (.mulh 3#5 1#5 2#5) := by decide
theorem test_decode_mulhsu : decode 0x0220A1B3#32 = .ok (.mulhsu 3#5 1#5 2#5) := by decide
theorem test_decode_mulhu : decode 0x0220B1B3#32 = .ok (.mulhu 3#5 1#5 2#5) := by decide
theorem test_decode_div : decode 0x0202C333#32 = .ok (.div 6#5 5#5 0#5) := by decide
theorem test_decode_divu : decode 0x029456B3#32 = .ok (.divu 13#5 8#5 9#5) := by decide
theorem test_decode_rem : decode 0x0202E3B3#32 = .ok (.rem 7#5 5#5 0#5) := by decide
theorem test_decode_remu : decode 0x02B572B3#32 = .ok (.remu 5#5 10#5 11#5) := by decide
theorem test_decode_ebreak : decode 0x00100073#32 = .ok (.ebreak) := by decide
theorem test_decode_beq_top : decode 0x7E208FE3#32 = .ok (.beq 1#5 2#5 4094#32) := by decide
theorem test_decode_beq_bottom : decode 0x80208063#32 = .ok (.beq 1#5 2#5 (-4096#32)) := by decide
theorem test_decode_beq_imm11 : decode 0x002080E3#32 = .ok (.beq 1#5 2#5 2048#32) := by decide
theorem test_decode_jal_top : decode 0x7FFFF0EF#32 = .ok (.jal 1#5 1048574#32) := by decide
theorem test_decode_jal_bottom : decode 0x800000EF#32 = .ok (.jal 1#5 (-1048576#32)) := by decide
theorem test_decode_jal_imm11 : decode 0x001000EF#32 = .ok (.jal 1#5 2048#32) := by decide
theorem test_decode_jal_imm12 : decode 0x000010EF#32 = .ok (.jal 1#5 4096#32) := by decide
theorem test_decode_sw_bottom : decode 0x8062A023#32 = .ok (.sw 5#5 6#5 (-2048#32)) := by decide
theorem test_decode_lw_bottom : decode 0x8002A503#32 = .ok (.lw 10#5 5#5 (-2048#32)) := by decide

/-! More words that are no instruction (family E). -/

theorem test_invalid_compressed : decode 0x00000001#32 = .error .opcode := by decide
theorem test_invalid_rv64 : decode 0x0000003B#32 = .error .opcode := by decide
theorem test_invalid_fence_i : decode 0x0000100F#32 = .error .opcode := by decide
theorem test_invalid_mret : decode 0x30200073#32 = .error .system := by decide
theorem test_invalid_wfi : decode 0x10500073#32 = .error .system := by decide
theorem test_invalid_csr : decode 0xC0002573#32 = .error .system := by decide
theorem test_invalid_ebreak_rs1 : decode 0x00108073#32 = .error .system := by decide
theorem test_invalid_branch_011 : decode 0x00003063#32 = .error .branchFunct3 := by decide
theorem test_invalid_load_110 : decode 0x0002E503#32 = .error .loadFunct3 := by decide
theorem test_invalid_load_111 : decode 0x0002F503#32 = .error .loadFunct3 := by decide
theorem test_invalid_store_011 : decode 0x0062B023#32 = .error .storeFunct3 := by decide
theorem test_invalid_srli_selector : decode 0x0230D113#32 = .error .opImmShift := by decide
theorem test_invalid_op_0000010 : decode 0x042081B3#32 = .error .opFunct := by decide
theorem test_invalid_op_0100001 : decode 0x422081B3#32 = .error .opFunct := by decide

/-- Too few bytes are refused by name, and the bytes after an instruction are left. -/
theorem test_decodeBytes_short : decodeBytes [0x73#8, 0x00#8, 0x10#8] = .error .tooFewBytes := by decide
theorem test_decodeBytes_rest :
    decodeBytes [0x73#8, 0x00#8, 0x10#8, 0x00#8, 0xAB#8] = .ok (.ebreak, [0xAB#8]) := by decide
theorem test_decodeTableWord : decodeTableWord 32 0x00108113 = some (.addi 2#5 1#5 1#32) := by decide

/-! ## One step of each instruction -/

/-! Upper immediates and control transfer (families U and C). -/

theorem test_lui : reg (run [] 0xFFFFF2B7) 5#5 = some 0xFFFFF000#32 := by decide
theorem test_auipc_wraps : reg (run [] 0x80000297) 5#5 = some 0x00000000#32 := by decide
theorem test_jal_back : pc (run [] 0x002000EF) = some 0x80000002#32 := by decide
theorem test_jal_links : reg (run [] 0x008000EF) 1#5 = some 0x80000004#32 := by decide
theorem test_jalr_old_register : pc (run [(1#5, 0x80000040#32)] 0x004080E7) = some 0x80000044#32 := by decide
theorem test_jalr_clears_bit_0 : pc (run [(5#5, 0x80000101#32)] 0x000280E7) = some 0x80000100#32 := by decide
theorem test_beq : pc (run [(1#5, 5#32), (2#5, 5#32)] 0x00208463) = some 0x80000008#32 := by decide
theorem test_beq_no : pc (run [(1#5, 0xFFFFFFFF#32), (2#5, 1#32)] 0x00208463) = some 0x80000004#32 := by decide
theorem test_bne : pc (run [(1#5, 0xFFFFFFFF#32), (2#5, 1#32)] 0x00209463) = some 0x80000008#32 := by decide
theorem test_bne_no : pc (run [(1#5, 5#32), (2#5, 5#32)] 0x00209463) = some 0x80000004#32 := by decide
theorem test_blt : pc (run [(1#5, 0x80000000#32), (2#5, 0x7FFFFFFF#32)] 0x0020C463) = some 0x80000008#32 := by decide
theorem test_blt_no : pc (run [(1#5, 1#32), (2#5, 0xFFFFFFFF#32)] 0x0020C463) = some 0x80000004#32 := by decide
theorem test_bge_equal : pc (run [(1#5, 5#32), (2#5, 5#32)] 0x0020D463) = some 0x80000008#32 := by decide
theorem test_bge_no : pc (run [(1#5, 0xFFFFFFFF#32), (2#5, 1#32)] 0x0020D463) = some 0x80000004#32 := by decide
theorem test_bltu : pc (run [(1#5, 1#32), (2#5, 0xFFFFFFFF#32)] 0x0020E463) = some 0x80000008#32 := by decide
theorem test_bltu_equal : pc (run [(1#5, 5#32), (2#5, 5#32)] 0x0020E463) = some 0x80000004#32 := by decide
theorem test_bgeu : pc (run [(1#5, 0x80000000#32), (2#5, 0x7FFFFFFF#32)] 0x0020F463) = some 0x80000008#32 := by decide
theorem test_bgeu_no : pc (run [(1#5, 1#32), (2#5, 0xFFFFFFFF#32)] 0x0020F463) = some 0x80000004#32 := by decide

/-! Loads and stores (family L). -/

theorem test_lb : reg (runData [(5#5, 0x80000100#32)] 0x00328503) 10#5 = some 0xFFFFFF80#32 := by decide
theorem test_lh_misaligned : reg (runData [(5#5, 0x80000100#32)] 0x00129503) 10#5 = some 0xFFFF91A2#32 := by decide
theorem test_lh : reg (runData [(5#5, 0x80000100#32)] 0x00029503) 10#5 = some 0xFFFFA2F3#32 := by decide
theorem test_lw_misaligned : reg (runData [(5#5, 0x80000100#32)] 0x0012A503) 10#5 = some 0x7F8091A2#32 := by decide
theorem test_lbu : reg (runData [(5#5, 0x80000100#32)] 0x0002C503) 10#5 = some 0x000000F3#32 := by decide
theorem test_lhu : reg (runData [(5#5, 0x80000100#32)] 0x0022D503) 10#5 = some 0x00008091#32 := by decide
theorem test_sb : bytes (run [(5#5, 0x80000100#32), (6#5, 0x12345678#32)] 0x006281A3) 0x80000100 = some [0x00#8, 0x00#8, 0x00#8, 0x78#8] := by decide
theorem test_sh_misaligned : bytes (run [(5#5, 0x80000100#32), (6#5, 0x12345678#32)] 0x006290A3) 0x80000100 = some [0x00#8, 0x78#8, 0x56#8, 0x00#8] := by decide
theorem test_sw_misaligned : bytes (run [(5#5, 0x80000100#32), (6#5, 0x12345678#32)] 0x0062A123) 0x80000102 = some [0x78#8, 0x56#8, 0x34#8, 0x12#8] := by decide
theorem test_lw_straddles_end :
    exec (.lw 10#5 5#5 0#32) (withRegs [(5#5, 0x87FFFFFE#32)] State.reset) = .fault (.memFault 0x87FFFFFE#32 4) := by rfl
theorem test_lb_last_byte : reg (run [(5#5, 0x87FFFFFF#32)] 0x00028503) 10#5 = some 0#32 := by decide
theorem test_sw_straddles_end :
    exec (.sw 5#5 6#5 0#32) (withRegs [(5#5, 0x87FFFFFD#32)] State.reset) = .fault (.memFault 0x87FFFFFD#32 4) := by rfl

/-! Register-immediate (family A). -/

theorem test_addi_overflow : reg (run [(1#5, 0x7FFFFFFF#32)] 0x00108113) 2#5 = some 0x80000000#32 := by decide
theorem test_addi_x0 : reg (run [(1#5, 0xFFFFFFFF#32)] 0x00508013) 0#5 = some 0#32 := by decide
theorem test_slti : reg (run [(1#5, 0xFFFFFFFF#32)] 0x0000A113) 2#5 = some 1#32 := by decide
theorem test_slti_no : reg (run [(1#5, 5#32)] 0x8000A113) 2#5 = some 0#32 := by decide
theorem test_sltiu_sign_extends : reg (run [] 0xFFF03113) 2#5 = some 1#32 := by decide
theorem test_sltiu_no : reg (run [(1#5, 0xFFFFFFFF#32)] 0x0000B113) 2#5 = some 0#32 := by decide
theorem test_xori : reg (run [(1#5, 0x0F0F0F0F#32)] 0xFFF0C113) 2#5 = some 0xF0F0F0F0#32 := by decide
theorem test_ori : reg (run [(1#5, 0x0F0F0F0F#32)] 0x8000E113) 2#5 = some 0xFFFFFF0F#32 := by decide
theorem test_andi : reg (run [(1#5, 0x12345678#32)] 0xFF00F113) 2#5 = some 0x12345670#32 := by decide
theorem test_slli : reg (run [(1#5, 0x80000001#32)] 0x00109113) 2#5 = some 0x00000002#32 := by decide
theorem test_srli : reg (run [(1#5, 0x80000000#32)] 0x0040D113) 2#5 = some 0x08000000#32 := by decide
theorem test_srai : reg (run [(1#5, 0x80000000#32)] 0x4040D113) 2#5 = some 0xF8000000#32 := by decide
theorem test_srai_positive : reg (run [(1#5, 0x40000000#32)] 0x41E0D113) 2#5 = some 0x00000001#32 := by decide

/-! Register-register (family B). -/

theorem test_add : reg (run [(1#5, 0x7FFFFFFF#32), (2#5, 0x7FFFFFFF#32)] 0x002081B3) 3#5 = some 0xFFFFFFFE#32 := by decide
theorem test_sub : reg (run [(1#5, 0#32), (2#5, 1#32)] 0x402081B3) 3#5 = some 0xFFFFFFFF#32 := by decide
theorem test_sll_33 : reg (run [(1#5, 1#32), (2#5, 33#32)] 0x002091B3) 3#5 = some 0x00000002#32 := by decide
theorem test_sll_all_ones : reg (run [(1#5, 1#32), (2#5, 0xFFFFFFFF#32)] 0x002091B3) 3#5 = some 0x80000000#32 := by decide
theorem test_slt : reg (run [(1#5, 0x80000000#32), (2#5, 0x7FFFFFFF#32)] 0x0020A1B3) 3#5 = some 1#32 := by decide
theorem test_sltu : reg (run [(1#5, 0x80000000#32), (2#5, 0x7FFFFFFF#32)] 0x0020B1B3) 3#5 = some 0#32 := by decide
theorem test_xor : reg (run [(1#5, 0xFF00FF00#32), (2#5, 0x0FF00FF0#32)] 0x0020C1B3) 3#5 = some 0xF0F0F0F0#32 := by decide
theorem test_srl_32 : reg (run [(1#5, 0x80000000#32), (2#5, 32#32)] 0x0020D1B3) 3#5 = some 0x80000000#32 := by decide
theorem test_sra_36 : reg (run [(1#5, 0x80000000#32), (2#5, 36#32)] 0x4020D1B3) 3#5 = some 0xF8000000#32 := by decide
theorem test_sra_positive : reg (run [(1#5, 0x7FFFFFFF#32), (2#5, 31#32)] 0x4020D1B3) 3#5 = some 0x00000000#32 := by decide
theorem test_or : reg (run [(1#5, 0xFF00FF00#32), (2#5, 0x0FF00FF0#32)] 0x0020E1B3) 3#5 = some 0xFFF0FFF0#32 := by decide
theorem test_and : reg (run [(1#5, 0xFF00FF00#32), (2#5, 0x0FF00FF0#32)] 0x0020F1B3) 3#5 = some 0x0F000F00#32 := by decide
theorem test_add_same_registers : reg (run [(1#5, 7#32)] 0x001080B3) 1#5 = some 14#32 := by decide

/-! Multiply and divide (family M). -/

theorem test_mul : reg (run [(1#5, 0x12345678#32), (2#5, 0x9ABCDEF0#32)] 0x022081B3) 3#5 = some 0x242D2080#32 := by decide
theorem test_mulh : reg (run [(1#5, 0x12345678#32), (2#5, 0x9ABCDEF0#32)] 0x022091B3) 3#5 = some 0xF8CC93D6#32 := by decide
theorem test_mulhsu : reg (run [(1#5, 0xFFFFFFFF#32), (2#5, 2#32)] 0x0220A1B3) 3#5 = some 0xFFFFFFFF#32 := by decide
theorem test_mulhsu_swapped : reg (run [(1#5, 2#32), (2#5, 0xFFFFFFFF#32)] 0x0220A1B3) 3#5 = some 1#32 := by decide
theorem test_mulhu : reg (run [(1#5, 0xFFFFFFFF#32), (2#5, 0xFFFFFFFF#32)] 0x0220B1B3) 3#5 = some 0xFFFFFFFE#32 := by decide
theorem test_div : reg (run [(1#5, 0xFFFFFFF9#32), (2#5, 2#32)] 0x0220C1B3) 3#5 = some 0xFFFFFFFD#32 := by decide
theorem test_divu : reg (run [(1#5, 0xFFFFFFF9#32), (2#5, 2#32)] 0x0220D1B3) 3#5 = some 0x7FFFFFFC#32 := by decide
theorem test_divu_by_zero : reg (run [(1#5, 7#32), (2#5, 0#32)] 0x0220D1B3) 3#5 = some 0xFFFFFFFF#32 := by decide
theorem test_rem : reg (run [(1#5, 0xFFFFFFF9#32), (2#5, 2#32)] 0x0220E1B3) 3#5 = some 0xFFFFFFFF#32 := by decide
theorem test_rem_negative_divisor : reg (run [(1#5, 7#32), (2#5, 0xFFFFFFFE#32)] 0x0220E1B3) 3#5 = some 1#32 := by decide
theorem test_remu : reg (run [(1#5, 0xFFFFFFF9#32), (2#5, 0xFFFFFFFE#32)] 0x0220F1B3) 3#5 = some 0xFFFFFFF9#32 := by decide
theorem test_remu_by_zero : reg (run [(1#5, 0x80000000#32), (2#5, 0#32)] 0x0220F1B3) 3#5 = some 0x80000000#32 := by decide

/-! EBREAK and the run state (family Y): the run state, the counter and the pc after one step. -/

theorem test_ebreak_ended :
    (run [] 0x00100073).map (fun t => (t.runState, t.icount, t.pc)) = some (.ended, 1, 0x80000000#32) := by decide
theorem test_ebreak_aborted :
    (run [(10#5, 0x80000000#32)] 0x00100073).map (fun t => (t.runState, t.icount, t.pc)) =
      some (.aborted, 1, 0x80000000#32) := by decide
theorem test_ecall_aborts :
    (run [] 0x00000073).map (fun t => (t.runState, t.icount, t.pc)) = some (.aborted, 1, 0x80000000#32) := by decide
theorem test_fetch_outside_crashes :
    (nextOf (step { State.reset with pc := 0x87FFFFFE#32 })).map (fun t => (t.crashed, t.icount, t.pc)) =
      some (true, 0, 0x87FFFFFE#32) := by decide
theorem test_division_by_zero_fatal :
    exec (.div 6#5 5#5 0#5) { State.reset with params := { Config.defaults with divPolicy := .fatal } } =
      .fault .divFault := by rfl
theorem test_execute_zero : execute 0 State.reset = .next State.reset := by rfl
theorem test_quit_ended : quit { State.reset with runState := .ended } = .next { State.reset with runState := .quitting } := by rfl
theorem test_quit_aborted :
    quit { State.reset with runState := .aborted } = .next { State.reset with runState := .aborted } := by rfl

/-! The memory unit at 8 bytes (S1). -/

theorem test_memory_eight_bytes :
    (match State.reset.memWrite 0x80000100#32 8 0x1122334455667788 with
     | .ok t => (t.memRead 0x80000100#32 8, t.memRead 0x80000107#32 1)
     | .error f => (.error f, .error f)) = (.ok 0x1122334455667788, .ok 0x11) := by rfl

/-! Names (family X) and the debugger (S6, S7). -/

theorem test_names :
    ["zero", "ra", "sp", "t0", "s0", "a0", "a7", "s2", "s11", "t3", "t6"].map indexOf =
      [0#5, 1#5, 2#5, 5#5, 8#5, 10#5, 17#5, 18#5, 27#5, 28#5, 31#5].map some := by decide
theorem test_names_not_found : ["x5", "fp", "pc"].map indexOf = [none, none, none] := by decide

/-- A host that reads `*` after a register as binary and stops at a failing watchpoint. -/
def Sys2Proof.Tests.host : HostChoices := { starAfterRegHexIsBinary := true, continueAfterFailure := false, watchpointChecking := true }

/-- A session of a machine whose next instruction is `addi a0, zero, 5`, with `$a0` watched. -/
def Sys2Proof.Tests.watched : Session :=
  (Sys2Proof.Machine.watch host "$a0" { machine := State.reset.withFetchWord 32 0x00500513, pool := WatchPool.empty }).1

theorem test_watch_reports_change : (runCommand host (.cont 1) watched).2 = [.changed 0 0#32 5#32] := by rfl
/-- R274's own case at a trap: the step changed a0 before, the next `continue` meets `ebreak` and still reports. -/
theorem test_watch_reports_after_trap :
    (runSession host 9 [.line "watch $a0", .line "step", .line "continue", .eof, .line "step"]
      { machine := (((State.reset.setPc 0x80000004#32).placeWord 0x00100073#32).setPc 0x80000000#32).placeWord 0x00500513#32
        pool := WatchPool.empty }).2 =
      [.watching 0, .done, .changed 0 0#32 5#32] := by rfl

/-- An expression that comes to fail is reported at every check, also where `continue` goes on (`addi a0, a0, -1`, then a
jump to itself). -/
theorem test_failing_watch_is_reported :
    (runSession { host with continueAfterFailure := true } 2 [.line "watch 1/$a0", .line "continue"]
      { machine := withRegs [(10#5, 1#32)]
          ((((State.reset.setPc 0x80000004#32).placeWord 0x0000006F#32).setPc 0x80000000#32).placeWord 0xFFF50513#32)
        pool := WatchPool.empty }).2 = [.watching 0, .diagnostic, .diagnostic, .done] := by rfl

/-- Built without the check, the same `continue` reports nothing. -/
theorem test_continue_without_checking :
    (runCommand { host with watchpointChecking := false } (.cont 1) watched).2 = [.done] := by rfl
theorem test_delete_unknown : (runCommand host (.delete 7) watched).2 = [.diagnostic] := by rfl
theorem test_watch_pool_full :
    (runCommand host (.watch "1") { machine := State.reset, pool := { free := [], used := [] } }).2 = [.diagnostic] := by rfl
theorem test_division_by_zero_in_expression : evaluate host State.reset "1/0" = .failed := by rfl
theorem test_dereference : evaluate host (State.reset.withFetchWord 32 0x12345678) "*0x80000000" = .value 0x12345678#32 := by rfl

/-! The built-in image and start-up (family R). -/

/-- A memory of 32 bytes below the top of the address space. -/
def Sys2Proof.Tests.small : Params := { memBase := 0xFFFFFFE0#32, memSize := 32, resetOffset := 28, divPolicy := .riscv }

theorem test_start_up :
    (nextOf (start small none (fun _ => 0xAA#8) (Vector.replicate 31 7#32))).map
      (fun t => (t.pc, t.mem.bytes 0xFFFFFFEC 5, t.mem.bytes 0xFFFFFFF4 2, t.readReg 0#5, t.readReg 31#5)) =
      some (0xFFFFFFFC#32, [0x73#8, 0x00#8, 0x10#8, 0x00#8, 0xEF#8], [0xAA#8, 0xAA#8], 0#32, 7#32) := by rfl

/-! ## Witnesses: every hypothesis of every statement is met

Statements without hypotheses need none. `reset` is a state that meets `wf`, `canStep` and legal parameters. -/

theorem witness_ResetWritesPcAndRegisterZeroOnly : State.reset.params.wf = true ∧ small.wf = true := ⟨rfl, rfl⟩

/-- The smallest memory, at the top of the address space, filled by the image; the last possible reset offset. -/
def Sys2Proof.Tests.least : Params := { memBase := 0xFFFFFFEC#32, memSize := 20, resetOffset := 16, divPolicy := .riscv }

theorem witness_StartUpGivesTheResetValues : least.wf = true ∧ builtInImage.length = least.memSize := ⟨rfl, rfl⟩

theorem witness_StartUpRefusesBadLaunches :
    Params.wf { least with memSize := 19 } = false ∧ Params.wf { least with resetOffset := 17 } = false ∧
    Params.wf { least with memBase := 0xFFFFFFED#32 } = false ∧
    least.wf = true ∧ least.memSize < (builtInImage ++ [0#8]).length := by decide

theorem witness_StartUpMeetsTheInvariant :
    (∃ t, start { least with resetOffset := 15 } none (fun _ => 0#8) (Vector.replicate 31 0#32) = .next t) ∧
    (least.memBase.toNat + least.resetOffset) % 2 = 0 ∧
    ∃ t, start least none (fun _ => 0#8) (Vector.replicate 31 0#32) = .next t := ⟨⟨_, rfl⟩, rfl, _, rfl⟩

theorem witness_CrashedMachineDefinesNoOperation : State.crashed { State.reset with crashed := true } = true := rfl

/-- The two faults and the success of a read at the end of memory. -/
theorem witness_MemReadIsTheLittleEndianSum :
    ¬ (3 = 1 ∨ 3 = 2 ∨ 3 = 4 ∨ 3 = 8) ∧ ¬ InRange State.reset.params (0x87FFFFFD#32).toNat 4 ∧
    ¬ InRange State.reset.params (0x7FFFFFFF#32).toNat 1 ∧
    InRange State.reset.params (0x87FFFFFC#32).toNat 4 ∧ InRange State.reset.params (0x80000000#32).toNat 8 := by decide

theorem witness_MemWriteStoresTheLowBytes :
    State.reset.mem.wf = true ∧ ¬ (0 = 1 ∨ 0 = 2 ∨ 0 = 4 ∨ 0 = 8) ∧ ¬ InRange State.reset.params (0x87FFFFF9#32).toNat 8 ∧
    InRange State.reset.params (0x87FFFFF8#32).toNat 8 := by decide

/-- An 8-byte write at the base, then bytes on either side of the half at the base + 2. -/
theorem witness_MemoryRoundTrip :
    State.reset.mem.wf = true ∧ InRange State.reset.params (0x80000000#32).toNat 8 ∧
    ∃ t u v, State.reset.memWrite 0x80000000#32 8 0x1122334455667788 = .ok t ∧ t.mem.wf = true ∧
      t.memRead 0x80000002#32 2 = .ok 0x5566 ∧ t.memWrite 0x80000004#32 1 0xFF = .ok u ∧
      u.memRead 0x80000002#32 2 = .ok 0x5566 ∧ u.memWrite 0x80000001#32 1 0xFF = .ok v ∧
      (0x80000002#32).toNat + 2 ≤ (0x80000004#32).toNat ∧ (0x80000001#32).toNat + 1 ≤ (0x80000002#32).toNat :=
  ⟨rfl, by decide, _, _, _, rfl, rfl, rfl, rfl, rfl, rfl, by decide, by decide⟩

theorem witness_MixedWidthAccessesSeeTheBytes :
    State.reset.mem.wf = true ∧ State.reset.params.wf = true ∧
    ∃ t, State.reset.memWrite 0x80000000#32 4 (0x12345678#32).toNat = .ok t ∧ 0x80000000#32 = t.pc := ⟨rfl, rfl, _, rfl, rfl⟩

/-- Both ends of every immediate's range. -/
theorem witness_DecodeOfEncodeIsTheInstruction :
    Instr.wellFormed (.addi 31#5 0#5 2047#32) = true ∧ Instr.wellFormed (.sw 0#5 31#5 (-2048#32)) = true ∧
    Instr.wellFormed (.beq 1#5 2#5 4094#32) = true ∧ Instr.wellFormed (.bne 1#5 2#5 (-4096#32)) = true ∧
    Instr.wellFormed (.lui 1#5 0xFFFFF000#32) = true ∧ Instr.wellFormed (.jal 1#5 1048574#32) = true ∧
    Instr.wellFormed (.jal 1#5 (-1048576#32)) = true := by decide

theorem witness_EncodeOfDecodeIsTheWord : decode 0x41E0D113#32 = .ok (.srai 2#5 1#5 30#5) := by decide

theorem witness_DecodeFollowsTheOpcodeTable : decode 0x8062A023#32 = .ok (.sw 5#5 6#5 (-2048#32)) := by decide

/-- Reset with a word at the pc. -/
def Sys2Proof.Tests.at' (w : Word) : State := State.reset.placeWord w

theorem witness_StepRunsTheDecodedInstruction :
    (at' 0x00108113#32).canStep ∧ InRange (at' 0x00108113#32).params (at' 0x00108113#32).pc.toNat 4 ∧
    decodeBytes [(at' 0x00108113#32).mem.read 0x80000000, (at' 0x00108113#32).mem.read 0x80000001,
      (at' 0x00108113#32).mem.read 0x80000002, (at' 0x00108113#32).mem.read 0x80000003] =
      .ok (.addi 2#5 1#5 1#32, []) := ⟨⟨rfl, rfl⟩, by decide, by decide⟩

theorem witness_StepRunsThePlacedWord :
    State.reset.canStep ∧ State.reset.mem.wf = true ∧ InRange State.reset.params State.reset.pc.toNat 4 ∧
    decode 0x00100073#32 = .ok .ebreak := ⟨⟨rfl, rfl⟩, rfl, by decide, by decide⟩

theorem witness_InvalidWordAbortsTheProgram :
    (at' 0x0FF0000F#32).canStep ∧ InRange (at' 0x0FF0000F#32).params (at' 0x0FF0000F#32).pc.toNat 4 ∧
    decodeBytes [(at' 0x0FF0000F#32).mem.read 0x80000000, (at' 0x0FF0000F#32).mem.read 0x80000001,
      (at' 0x0FF0000F#32).mem.read 0x80000002, (at' 0x0FF0000F#32).mem.read 0x80000003] = .error .opcode :=
  ⟨⟨rfl, rfl⟩, by decide, by decide⟩

theorem witness_EbreakHaltsByTheValueOfA0 :
    (at' 0x00100073#32).canStep ∧ (at' 0x00100073#32).fetch = .ok 0x00100073#32 := ⟨⟨rfl, rfl⟩, rfl⟩

/-- A pc whose four bytes straddle the end of memory, and one at the end. -/
theorem witness_FetchIsAReadAtThePc :
    State.reset.memRead State.reset.pc 4 = .ok 0 ∧ InRange State.reset.params (0x87FFFFFC#32).toNat 4 ∧
    State.memRead { State.reset with pc := 0x87FFFFFD#32 } 0x87FFFFFD#32 4 = .error (.memFault 0x87FFFFFD#32 4) ∧
    State.canStep { State.reset with pc := 0x87FFFFFD#32 } ∧ ¬ InRange State.reset.params (0x87FFFFFD#32).toNat 4 ∧
    ¬ InRange State.reset.params (0x88000000#32).toNat 4 := ⟨rfl, by decide, rfl, ⟨rfl, rfl⟩, by decide, by decide⟩

/-- A crash at the fetch, at a load and at a division (under the fatal policy). -/
theorem witness_ExecuteStopsAtACrash :
    (State.canStep { State.reset with pc := 0#32 } ∧ ∃ t, step { State.reset with pc := 0#32 } = .next t ∧ t.crashed = true) ∧
    ((at' 0x0002A003#32).canStep ∧ ∃ t, step (at' 0x0002A003#32) = .next t ∧ t.crashed = true) ∧
    State.canStep { at' 0x0220C1B3#32 with params := { Config.defaults with divPolicy := .fatal } } ∧
    ∃ t, step { at' 0x0220C1B3#32 with params := { Config.defaults with divPolicy := .fatal } } = .next t ∧ t.crashed = true :=
  ⟨⟨⟨rfl, rfl⟩, _, rfl, rfl⟩, ⟨⟨rfl, rfl⟩, _, rfl, rfl⟩, ⟨rfl, rfl⟩, _, rfl, rfl⟩

theorem witness_HaltedMachineDoesNotRun :
    State.crashed { State.reset with runState := .ended } = false ∧
    State.crashed { State.reset with runState := .aborted } = false ∧
    State.crashed { State.reset with runState := .quitting } = false := ⟨rfl, rfl, rfl⟩

/-- Reset, and a sound machine whose pc is odd. -/
theorem witness_StepKeepsTheInvariant :
    State.reset.Inv ∧ (∃ t, step State.reset = .next t) ∧
    State.Sound { State.reset with pc := 0x80000001#32 } ∧ ∃ t, step { State.reset with pc := 0x80000001#32 } = .next t :=
  ⟨⟨⟨rfl, rfl, fun _ h => (nomatch h), rfl⟩, rfl⟩, ⟨_, rfl⟩, ⟨rfl, rfl, fun _ h => (nomatch h), rfl⟩, _, rfl⟩

/-- A counted step, a crash, and a machine that refuses to run. -/
theorem witness_StepsThatReturnAreCounted :
    State.reset.canStep ∧ (∃ t, step State.reset = .next t ∧ t.crashed = false) ∧
    State.canStep { State.reset with pc := 0#32 } ∧ (∃ t, step { State.reset with pc := 0#32 } = .next t ∧ t.crashed = true) ∧
    RunState.canRun .ended = false ∧ ∃ t, execute 5 { State.reset with runState := .ended } = .next t :=
  ⟨⟨rfl, rfl⟩, ⟨_, rfl, rfl⟩, ⟨rfl, rfl⟩, ⟨_, rfl, rfl⟩, rfl, _, rfl⟩

/-- Both kinds of trap: a crash, and a run state that changes. -/
theorem witness_TrapsArePrecise :
    (State.canStep { State.reset with pc := 0#32 } ∧ ∃ t, step { State.reset with pc := 0#32 } = .next t ∧ t.crashed = true) ∧
    State.reset.canStep ∧ ∃ t, step State.reset = .next t ∧ t.runState ≠ State.reset.runState :=
  ⟨⟨⟨rfl, rfl⟩, _, rfl, rfl⟩, ⟨rfl, rfl⟩, _, rfl, by decide⟩

theorem witness_OnlyTrapsChangeTheRunState :
    State.reset.canStep ∧ (∃ t, step State.reset = .next t ∧ t.runState = .aborted) ∧
    (at' 0x00100073#32).canStep ∧ ∃ t, step (at' 0x00100073#32) = .next t ∧ t.runState = .ended :=
  ⟨⟨rfl, rfl⟩, ⟨_, rfl, rfl⟩, ⟨rfl, rfl⟩, _, rfl, rfl⟩

theorem witness_InstructionWritesAtMostItsDestination :
    ∃ t, exec (.addi 31#5 0#5 1#32) State.reset = .next t ∧ t.readReg 31#5 ≠ State.reset.readReg 31#5 := ⟨_, rfl, by decide⟩

/-- A form that stores nothing and one that stores. -/
theorem witness_OnlyStoresChangeMemory :
    State.reset.mem.wf = true ∧ (∃ t, exec (.lui 1#5 0x1000#32) State.reset = .next t) ∧
    storesTo State.reset (.lui 1#5 0x1000#32) = none ∧
    (∃ t, exec (.sw 5#5 6#5 0#32) (withRegs [(5#5, 0x87FFFFFC#32)] State.reset) = .next t) ∧
    storesTo (withRegs [(5#5, 0x87FFFFFC#32)] State.reset) (.sw 5#5 6#5 0#32) = some (0x87FFFFFC#32, 4) :=
  ⟨rfl, ⟨_, rfl⟩, rfl, ⟨_, rfl⟩, by decide⟩

theorem witness_ParametersNeverChange : ∃ t, step State.reset = .next t := ⟨_, rfl⟩

theorem witness_LiveMachineAlwaysSteps : State.reset.crashed = false := rfl

/-- A word for every encoding that the statement names. -/
theorem witness_UpperImmediateResults : opcodeOf 0x123452B7#32 = 0b0110111#7 ∧ opcodeOf 0x00000297#32 = 0b0010111#7 := by decide

theorem witness_BranchResults :
    opcodeOf 0x00208463#32 = 0b1100011#7 ∧
    [0x00208463#32, 0x00209463#32, 0x0020C463#32, 0x0020D463#32, 0x0020E463#32, 0x0020F463#32].map
      (fun w => (opcodeOf w, funct3Of w)) =
      [0b000#3, 0b001#3, 0b100#3, 0b101#3, 0b110#3, 0b111#3].map (fun f => (0b1100011#7, f)) := by decide

/-- The last address of each width, the first outside, and a word for every encoding. -/
theorem witness_LoadResults :
    (0x87FFFFFF#32 : Word) = (withRegs [(5#5, 0x87FFFFFF#32)] State.reset).readReg 5#5 + 0#32 ∧
    InRange State.reset.params (0x87FFFFFF#32).toNat 1 ∧ ¬ InRange State.reset.params (0x88000000#32).toNat 1 ∧
    InRange State.reset.params (0x87FFFFFE#32).toNat 2 ∧ ¬ InRange State.reset.params (0x87FFFFFF#32).toNat 2 ∧
    InRange State.reset.params (0x87FFFFFC#32).toNat 4 ∧ ¬ InRange State.reset.params (0x7FFFFFFF#32).toNat 4 ∧
    [0x00028503#32, 0x00029503#32, 0x0002A503#32, 0x0002C503#32, 0x0002D503#32].map (fun w => (opcodeOf w, funct3Of w)) =
      [0b000#3, 0b001#3, 0b010#3, 0b100#3, 0b101#3].map (fun f => (0b0000011#7, f)) := by decide

/-- A load to x0 from address 0, and a store, each as the next instruction. -/
theorem witness_AccessOutsideMemoryCrashesTheStep :
    (at' 0x0002A003#32).canStep ∧ (at' 0x0002A003#32).fetch = .ok 0x0002A003#32 ∧
    decode 0x0002A003#32 = .ok (.lw 0#5 5#5 0#32) ∧ exec (.lw 0#5 5#5 0#32) (at' 0x0002A003#32) = .fault (.memFault 0#32 4) ∧
    ¬ InRange (at' 0x0002A003#32).params ((at' 0x0002A003#32).readReg 5#5 + 0#32).toNat 4 ∧
    (at' 0x00628023#32).canStep ∧ (at' 0x00628023#32).fetch = .ok 0x00628023#32 ∧
    decode 0x00628023#32 = .ok (.sb 5#5 6#5 0#32) ∧ storesTo (at' 0x00628023#32) (.sb 5#5 6#5 0#32) = some (0#32, 1) ∧
    ¬ InRange (at' 0x00628023#32).params (0#32).toNat 1 :=
  ⟨⟨rfl, rfl⟩, rfl, rfl, rfl, by decide, ⟨rfl, rfl⟩, rfl, rfl, rfl, by decide⟩

/-- Its loads of one and two bytes. -/
theorem witness_AccessOutsideMemoryCrashesTheStep_narrow :
    (at' 0x00028503#32).fetch = .ok 0x00028503#32 ∧ decode 0x00028503#32 = .ok (.lb 10#5 5#5 0#32) ∧
    ¬ InRange (at' 0x00028503#32).params ((at' 0x00028503#32).readReg 5#5 + 0#32).toNat 1 ∧
    (at' 0x0002D503#32).fetch = .ok 0x0002D503#32 ∧ decode 0x0002D503#32 = .ok (.lhu 10#5 5#5 0#32) ∧
    ¬ InRange (at' 0x0002D503#32).params ((at' 0x0002D503#32).readReg 5#5 + 0#32).toNat 2 :=
  ⟨rfl, rfl, by decide, rfl, rfl, by decide⟩

theorem witness_StoreResults :
    State.reset.mem.wf = true ∧
    (0x80000000#32 : Word) = (withRegs [(5#5, 0x80000000#32)] State.reset).readReg 5#5 + 0#32 ∧
    InRange State.reset.params (0x80000000#32).toNat 1 ∧ ¬ InRange State.reset.params (0x7FFFFFFF#32).toNat 1 ∧
    InRange State.reset.params (0x87FFFFFE#32).toNat 2 ∧ ¬ InRange State.reset.params (0x87FFFFFF#32).toNat 2 ∧
    InRange State.reset.params (0x87FFFFFC#32).toNat 4 ∧ ¬ InRange State.reset.params (0x87FFFFFD#32).toNat 4 ∧
    [0x00628023#32, 0x00629023#32, 0x0062A023#32].map (fun w => (opcodeOf w, funct3Of w)) =
      [0b000#3, 0b001#3, 0b010#3].map (fun f => (0b0100011#7, f)) := by decide

theorem witness_ImmediateAddAndCompareResults :
    [0x00108113#32, 0x0000A113#32, 0xFFF03113#32].map (fun w => (opcodeOf w, funct3Of w)) =
      [0b000#3, 0b010#3, 0b011#3].map (fun f => (0b0010011#7, f)) := by decide

theorem witness_ImmediateLogicResults :
    [0xFFF0C113#32, 0x7F00E113#32, 0xFF00F113#32].map (fun w => (opcodeOf w, funct3Of w)) =
      [0b100#3, 0b110#3, 0b111#3].map (fun f => (0b0010011#7, f)) := by decide

/-- The three encodings, and two words with another selector. -/
theorem witness_ImmediateShiftResults :
    [0x01F09113#32, 0x0040D113#32, 0x4040D113#32, 0x40309113#32, 0x0230D113#32].map
      (fun w => (opcodeOf w, funct3Of w, funct7Of w)) =
      [(0b0010011#7, 0b001#3, 0b0000000#7), (0b0010011#7, 0b101#3, 0b0000000#7), (0b0010011#7, 0b101#3, 0b0100000#7),
       (0b0010011#7, 0b001#3, 0b0100000#7), (0b0010011#7, 0b101#3, 0b0000001#7)] := by decide

theorem witness_RegisterAddAndCompareResults :
    [0x002081B3#32, 0x402081B3#32, 0x0020A1B3#32, 0x0020B1B3#32].map (fun w => (opcodeOf w, funct3Of w, funct7Of w)) =
      [(0b0110011#7, 0b000#3, 0b0000000#7), (0b0110011#7, 0b000#3, 0b0100000#7), (0b0110011#7, 0b010#3, 0b0000000#7),
       (0b0110011#7, 0b011#3, 0b0000000#7)] := by decide

theorem witness_RegisterShiftResults :
    [0x002091B3#32, 0x0020D1B3#32, 0x4020D1B3#32].map (fun w => (opcodeOf w, funct3Of w, funct7Of w)) =
      [(0b0110011#7, 0b001#3, 0b0000000#7), (0b0110011#7, 0b101#3, 0b0000000#7), (0b0110011#7, 0b101#3, 0b0100000#7)] := by
  decide

theorem witness_RegisterLogicResults :
    [0x0020C1B3#32, 0x0020E1B3#32, 0x0020F1B3#32].map (fun w => (opcodeOf w, funct3Of w, funct7Of w)) =
      [0b100#3, 0b110#3, 0b111#3].map (fun f => (0b0110011#7, f, 0b0000000#7)) := by decide

theorem witness_MultiplyResults :
    [0x022081B3#32, 0x022091B3#32, 0x0220A1B3#32, 0x0220B1B3#32].map (fun w => (opcodeOf w, funct3Of w, funct7Of w)) =
      [0b000#3, 0b001#3, 0b010#3, 0b011#3].map (fun f => (0b0110011#7, f, 0b0000001#7)) := by decide

/-- The most negative dividend with a divisor that is no corner. -/
theorem witness_SignedDivisionResults :
    (withRegs [(1#5, 0x80000000#32), (2#5, 1#32)] State.reset).readReg 2#5 ≠ 0#32 ∧
    ¬ ((withRegs [(1#5, 0x80000000#32), (2#5, 1#32)] State.reset).readReg 1#5 = 0x80000000#32 ∧
      (withRegs [(1#5, 0x80000000#32), (2#5, 1#32)] State.reset).readReg 2#5 = 0xFFFFFFFF#32) := by decide

theorem witness_UnsignedDivisionResults :
    (withRegs [(1#5, 0x80000000#32), (2#5, 0xFFFFFFFF#32)] State.reset).readReg 2#5 ≠ 0#32 := by decide

theorem witness_DivisionCornersUnderRiscvPolicy :
    State.reset.params.divPolicy = .riscv ∧ State.reset.readReg 2#5 = 0#32 ∧
    (withRegs [(1#5, 0x80000000#32), (2#5, 0xFFFFFFFF#32)] State.reset).params.divPolicy = .riscv ∧
    (withRegs [(1#5, 0x80000000#32), (2#5, 0xFFFFFFFF#32)] State.reset).readReg 1#5 = 0x80000000#32 ∧
    (withRegs [(1#5, 0x80000000#32), (2#5, 0xFFFFFFFF#32)] State.reset).readReg 2#5 = 0xFFFFFFFF#32 := by decide

theorem witness_DivisionCornersUnderFatalPolicy :
    (State.params { State.reset with params := { Config.defaults with divPolicy := .fatal } }).divPolicy = .fatal := rfl

theorem witness_SplittingABatchChangesNothing :
    ∃ t, execute 1 (at' 0x0000006F#32) = .next t ∧ t.crashed = false := ⟨_, rfl, rfl⟩

theorem witness_ExecuteOneIsOneStep :
    (State.reset.runState = .stopped ∧ ∃ t, step State.reset = .next t ∧ t.crashed = false) ∧
    State.canStep { State.reset with runState := .running } := ⟨⟨rfl, _, rfl, rfl⟩, rfl, rfl⟩

theorem witness_QuitIsRefusedByAbortedAlone : State.reset.crashed = false := rfl

/-- The last words of memory, the next word outside, and an address that straddles the end. -/
theorem witness_ExamineReadsWordsOrCrashes :
    State.reset.crashed = false ∧ (∀ k, k < 2 → InRange State.reset.params (0x87FFFFF8#32 + BitVec.ofNat 32 (4 * k)).toNat 4) ∧
    ¬ InRange State.reset.params (0x87FFFFF8#32 + BitVec.ofNat 32 (4 * 2)).toNat 4 ∧
    ¬ InRange State.reset.params (0x87FFFFFE#32 + BitVec.ofNat 32 (4 * 0)).toNat 4 := by decide

theorem witness_WatchpointSlotsStayPartitioned :
    (WatchPool.empty.free ++ WatchPool.empty.used.map Watchpoint.slot).Perm (List.range 32) ∧
    (watched.pool.free ++ watched.pool.used.map Watchpoint.slot).Perm (List.range 32) := by decide

theorem witness_LiveMachineAnswersTheHost :
    State.reset.crashed = false ∧ "x10" ∉ regNames ∧ 31 < regNames.length ∧ State.reset.mem.wf = true ∧
    builtInImage.length ≤ State.reset.params.memSize ∧
    State.params { State.reset with params := least } = least ∧ least.memSize < (builtInImage ++ [0#8]).length := by decide

/-- Either way of the premise. -/
theorem witness_ContinueWithoutWatchpointsIsExecute :
    watched.machine.crashed = false ∧ watched.machine.runState ≠ .running ∧
    HostChoices.watchpointChecking { host with watchpointChecking := false } = false ∧ WatchPool.empty.used = [] := by decide

/-- A watched register that the step changes, and a step that traps after an earlier change. -/
theorem witness_ContinueReportsAChangedValue :
    host.watchpointChecking = true ∧ watched.machine.canStep ∧
    (∃ s, execute 1 watched.machine = .next s ∧ s.crashed = false ∧ evaluate host s "$a0" = .value 5#32) ∧
    (∃ k, watched.pool.used = [⟨k, "$a0", 0#32⟩]) ∧ 5#32 ≠ 0#32 ∧
    (withRegs [(10#5, 7#32)] (at' 0x00100073#32)).canStep ∧
    ∃ s, execute 1 (withRegs [(10#5, 7#32)] (at' 0x00100073#32)) = .next s ∧ s.crashed = false ∧ s.runState = .aborted ∧
      evaluate host s "$a0" = .value 7#32 :=
  ⟨rfl, ⟨rfl, rfl⟩, ⟨_, rfl, rfl, rfl⟩, ⟨0, rfl⟩, by decide, ⟨rfl, rfl⟩, _, rfl, rfl, rfl, rfl⟩

/-- A failing expression, for either choice and after a trap. -/
theorem witness_ContinueReportsAChangedValue_failing :
    (∃ s, execute 1 (at' 0x0000006F#32) = .next s ∧ s.crashed = false ∧ s.runState = .stopped ∧
      evaluate { host with continueAfterFailure := true } s "1/$a0" = .failed ∧ evaluate host s "1/$a0" = .failed) ∧
    (at' 0x0000006F#32).canStep ∧ host.continueAfterFailure = false ∧
    (at' 0x00100073#32).canStep ∧
    ∃ s, execute 1 (at' 0x00100073#32) = .next s ∧ s.crashed = false ∧ s.runState ≠ .stopped ∧
      evaluate host s "1/$a0" = .failed :=
  ⟨⟨_, rfl, rfl, rfl, rfl, rfl⟩, ⟨rfl, rfl⟩, rfl, ⟨rfl, rfl⟩, _, rfl, rfl, by decide, rfl⟩

/-- A line for every clause about lines. -/
theorem witness_CommandLinesGoThroughTheTable :
    watched.machine.crashed = false ∧ splitWord " stop".toList = ("stop".toList, []) ∧
    splitWord "step 3".toList = ("step".toList, ['3']) ∧ splitWord "print ".toList = ("print".toList, []) ∧
    splitWord "examine x 4".toList = ("examine".toList, "x 4".toList) ∧ readCount (splitWord "x 4".toList).1 = none ∧
    splitWord "examine 4".toList = ("examine".toList, "4".toList) ∧ (splitWord "4".toList).2 = [] ∧
    splitWord "delete".toList = ("delete".toList, []) ∧ readCount (splitWord []).1 = none ∧
    splitWord "delete 1 2".toList = ("delete".toList, "1 2".toList) ∧ (splitWord "1 2".toList).2 ≠ [] := by decide
end

section
/-! # Family 10_state: facts the statements about the state share

What a step keeps follows from one frame (`step_keeps`) and from `exec_cases`; that jumps keep an even pc needs that
decoded instructions are well formed (`decode_wellFormed`). -/

namespace Sys2Proof

/-! ## A decoded immediate is in its format's range (30_encoding R90 to R94) -/

/-- The scattered immediates end in a zero bit, so their signed view is twice that of the bits above it. -/
theorem toInt_signExtend_append_zero {n : Nat} (x : BitVec n) (h : n + 1 ≤ 32) :
    ((x ++ 0#1).signExtend 32).toInt = 2 * x.toInt := by
  rw [BitVec.toInt_signExtend_of_le h, BitVec.toInt_append_zero, pow_one]

theorem toNat_even_of_toInt {w : Word} {k : Int} (h : w.toInt = 2 * k) : w.toNat % 2 = 0 := by
  rw [BitVec.toInt_eq_toNat_cond] at h
  split at h <;> omega

theorem fitsImm12_signExtend (x : BitVec 12) : fitsImm12 (x.signExtend 32) = true := by
  have hlo := x.le_toInt
  have hhi := x.toInt_lt
  rw [fitsImm12, BitVec.toInt_signExtend_of_le (by decide), decide_eq_true_eq]
  omega

theorem fitsImm12_immI (w : Word) : fitsImm12 (immI w) = true := fitsImm12_signExtend _

theorem fitsImm12_immS (w : Word) : fitsImm12 (immS w) = true := fitsImm12_signExtend _

theorem fitsImmB_signExtend (x : BitVec 12) : fitsImmB ((x ++ 0#1).signExtend 32) = true := by
  have htwice := toInt_signExtend_append_zero x (by decide)
  have hlo := x.le_toInt
  have hhi := x.toInt_lt
  rw [fitsImmB, decide_eq_true_eq]
  exact ⟨by omega, by omega, toNat_even_of_toInt htwice⟩

theorem fitsImmB_immB (w : Word) : fitsImmB (immB w) = true := fitsImmB_signExtend _

theorem fitsImmJ_signExtend (x : BitVec 20) : fitsImmJ ((x ++ 0#1).signExtend 32) = true := by
  have htwice := toInt_signExtend_append_zero x (by decide)
  have hlo := x.le_toInt
  have hhi := x.toInt_lt
  rw [fitsImmJ, decide_eq_true_eq]
  exact ⟨by omega, by omega, toNat_even_of_toInt htwice⟩

theorem fitsImmJ_immJ (w : Word) : fitsImmJ (immJ w) = true := fitsImmJ_signExtend _

theorem fitsImmU_append (x : BitVec 20) : fitsImmU (x ++ 0#12) = true := by
  rw [fitsImmU, decide_eq_true_eq]
  have hlow : (x ++ 0#12).toNat = x.toNat * 4096 := by
    rw [BitVec.toNat_append, Nat.shiftLeft_eq]
    simp
  exact hlow ▸ Nat.mul_mod_left _ _

theorem fitsImmU_immU (w : Word) : fitsImmU (immU w) = true := fitsImmU_append _

/-! ## Decoded instructions are well formed, group by group (30_encoding R100 to R106) -/

theorem decodeBranch_wellFormed {w : Word} {i : Instr} (h : decodeBranch w = .ok i) : i.wellFormed = true := by
  unfold decodeBranch at h
  split_ifs at h <;> cases h <;> exact fitsImmB_immB w

theorem decodeLoad_wellFormed {w : Word} {i : Instr} (h : decodeLoad w = .ok i) : i.wellFormed = true := by
  unfold decodeLoad at h
  split_ifs at h <;> cases h <;> exact fitsImm12_immI w

theorem decodeStore_wellFormed {w : Word} {i : Instr} (h : decodeStore w = .ok i) : i.wellFormed = true := by
  unfold decodeStore at h
  split_ifs at h <;> cases h <;> exact fitsImm12_immS w

/-- The shifts have no immediate to fit: their amount is 5 bits by its type. -/
theorem decodeOpImm_wellFormed {w : Word} {i : Instr} (h : decodeOpImm w = .ok i) : i.wellFormed = true := by
  unfold decodeOpImm at h
  split_ifs at h <;> cases h <;> simp [Instr.wellFormed, fitsImm12_immI]

theorem decodeOpBase_wellFormed (w : Word) : (decodeOpBase w).wellFormed = true := by
  unfold decodeOpBase
  split_ifs <;> rfl

theorem decodeMulDiv_wellFormed (w : Word) : (decodeMulDiv w).wellFormed = true := by
  unfold decodeMulDiv
  split_ifs <;> rfl

theorem decodeOp_wellFormed {w : Word} {i : Instr} (h : decodeOp w = .ok i) : i.wellFormed = true := by
  unfold decodeOp at h
  split_ifs at h <;> cases h
  · exact decodeOpBase_wellFormed w
  · exact decodeMulDiv_wellFormed w
  · rfl
  · rfl

/-- Every word that decodes gives an instruction whose immediate fits its format (30_encoding R90 to R95). -/
theorem decode_wellFormed {w : Word} {i : Instr} (h : decode w = .ok i) : i.wellFormed = true := by
  unfold decode at h
  repeat' split at h
  · cases h; exact fitsImmU_immU w
  · cases h; exact fitsImmU_immU w
  · cases h; exact fitsImmJ_immJ w
  · cases h; exact fitsImm12_immI w
  · cases h
  · exact decodeBranch_wellFormed h
  · exact decodeLoad_wellFormed h
  · exact decodeStore_wellFormed h
  · exact decodeOpImm_wellFormed h
  · exact decodeOp_wellFormed h
  · cases h; rfl
  · cases h
  · cases h

/-! ## The opcode of an encoding, format by format (30_encoding R83) -/

@[simp] theorem opcodeOf_encodeR (funct7 : BitVec 7) (funct3 : BitVec 3) (op : BitVec 7) (rd rs1 rs2 : Reg) :
    opcodeOf (encodeR funct7 funct3 op rd rs1 rs2) = op := opcodeOf_assemble ..

@[simp] theorem opcodeOf_encodeI (funct3 : BitVec 3) (op : BitVec 7) (rd rs1 : Reg) (imm : Word) :
    opcodeOf (encodeI funct3 op rd rs1 imm) = op := opcodeOf_assemble ..

@[simp] theorem opcodeOf_encodeS (funct3 : BitVec 3) (rs1 rs2 : Reg) (imm : Word) :
    opcodeOf (encodeS funct3 rs1 rs2 imm) = 0b0100011#7 := opcodeOf_assemble ..

@[simp] theorem opcodeOf_encodeB (funct3 : BitVec 3) (rs1 rs2 : Reg) (imm : Word) :
    opcodeOf (encodeB funct3 rs1 rs2 imm) = 0b1100011#7 := opcodeOf_assemble ..

@[simp] theorem opcodeOf_encodeU (op : BitVec 7) (rd : Reg) (imm : Word) :
    opcodeOf (encodeU op rd imm) = op := opcodeOf_assemble ..

@[simp] theorem opcodeOf_encodeJ (rd : Reg) (imm : Word) :
    opcodeOf (encodeJ rd imm) = 0b1101111#7 := opcodeOf_assemble ..

end Sys2Proof

namespace Sys2Proof.Machine

/-! ## What a step keeps -/

/-- The frame of a step: a property of the state before that traps, decoded instructions and counting keep is a property
of every next state. -/
theorem step_keeps {P : State → Prop} {s t : State} (h : step s = .next t) (before : P s)
    (trap : ∀ e, P (s.takeTrap e)) (instr : ∀ i u, i.wellFormed = true → exec i s = .next u → P u)
    (count : ∀ u, P u → P u.countStep) : P t := by
  obtain ⟨-, ⟨-, rfl⟩ | ⟨-, ⟨f, -, rfl⟩ | ⟨u, hu, rfl⟩⟩⟩ := step_cases h
  · exact before
  · exact trap _
  · refine count u ?_
    obtain ⟨w, -, ⟨e, -, rfl⟩ | ⟨i, hi, hex⟩⟩ := engineStep_cases hu
    · exact trap _
    · exact instr i u (decode_wellFormed hi) hex

/-! ## Parameters -/

theorem exec_params {i : Instr} {s t : State} (h : exec i s = .next t) : t.params = s.params := by
  obtain ⟨rd, v, p, -, -, -, rfl⟩ | ⟨p, -, -, -, rfl⟩ | ⟨a, n, v, u, -, -, hu, rfl⟩ | ⟨-, rfl⟩ := exec_cases h
  · exact State.commit_params s rd v p
  · exact State.setPc_params s p
  · obtain ⟨-, -, rfl⟩ := State.memWrite_ok hu
    rfl
  · exact State.takeTrap_params s _

/-- Settles O32, by the frame of a step. -/
theorem parametersNeverChange : Obligations.ParametersNeverChange := fun s _ h =>
  step_keeps (P := fun u => u.params = s.params) h rfl (State.takeTrap_params s) (fun _ _ _ hex => exec_params hex)
    (fun _ hu => hu)

/-! ## Soundness -/

/-- Soundness looks at slot 0, memory and the parameters alone. -/
theorem State.Sound.congr {s t : State} (h : s.Sound) (hreg : t.regs[0] = s.regs[0]) (hmem : t.mem = s.mem)
    (hparams : t.params = s.params) : t.Sound where
  regZero := hreg.trans h.regZero
  memCanon := hmem ▸ h.memCanon
  memInside := by rw [hmem, hparams]; exact h.memInside
  params := hparams ▸ h.params

/-- A store that passes its checks lists no byte outside memory (20_memory R53, R55). -/
theorem State.Sound.memWrite {s u : State} {a : Word} {n v : Nat} (h : s.Sound) (hu : s.memWrite a n v = .ok u) :
    u.Sound := by
  have hcanon := State.memWrite_wf hu h.memCanon
  obtain ⟨-, hin, rfl⟩ := State.memWrite_ok hu
  refine ⟨h.regZero, hcanon, fun c hc => ?_, h.params⟩
  rcases Memory.mem_writeBytes _ _ _ c hc with hold | hnew
  · exact h.memInside c hold
  · rw [length_leBytes] at hnew
    change s.params.memBase.toNat ≤ c.1 ∧ c.1 + 1 ≤ s.params.memBase.toNat + s.params.memSize
    omega

theorem State.Sound.takeTrap {s : State} (h : s.Sound) (e : Trap) : (s.takeTrap e).Sound :=
  h.congr (by simp) (by simp) (by simp)

theorem State.Sound.exec {i : Instr} {s t : State} (h : s.Sound) (hex : exec i s = .next t) : t.Sound := by
  obtain ⟨rd, v, p, -, -, -, rfl⟩ | ⟨p, -, -, -, rfl⟩ | ⟨a, n, v, u, -, -, hu, rfl⟩ | ⟨-, rfl⟩ := exec_cases hex
  · exact h.congr (by simp) (by simp) (by simp)
  · exact h.congr rfl rfl rfl
  · exact (h.memWrite hu).congr rfl rfl rfl
  · exact h.takeTrap _

theorem State.Sound.step {s t : State} (h : s.Sound) (hst : Machine.step s = .next t) : t.Sound :=
  step_keeps hst h h.takeTrap (fun _ _ _ => h.exec) (fun _ hu => hu.congr rfl rfl rfl)

/-! ## An even pc (10_state R28) -/

theorem toNat_add_even {a b : Word} (ha : a.toNat % 2 = 0) (hb : b.toNat % 2 = 0) : (a + b).toNat % 2 = 0 := by
  rw [BitVec.toNat_add]
  omega

theorem State.jalrTarget_even (s : State) (rs1 : Reg) (imm : Word) : (s.jalrTarget rs1 imm).toNat % 2 = 0 := by
  rw [State.jalrTarget, BitVec.toNat_and, Nat.mod_two_eq_zero_iff_testBit_zero, Nat.testBit_and]
  simp

theorem NextPc.even {s : State} {i : Instr} {p : Word} (h : NextPc s i p) (hwf : i.wellFormed = true)
    (hpc : s.pc.toNat % 2 = 0) : p.toNat % 2 = 0 := by
  obtain rfl | ⟨imm, rfl, himm⟩ | ⟨rs1, imm, rfl⟩ := h
  · exact toNat_add_even hpc rfl
  · exact toNat_add_even hpc (himm hwf)
  · exact s.jalrTarget_even rs1 imm

theorem exec_pc_even {i : Instr} {s t : State} (hwf : i.wellFormed = true) (hpc : s.pc.toNat % 2 = 0)
    (hex : exec i s = .next t) : t.pc.toNat % 2 = 0 := by
  obtain ⟨rd, v, p, -, -, hp, rfl⟩ | ⟨p, -, -, hp, rfl⟩ | ⟨a, n, v, u, -, -, hu, rfl⟩ | ⟨-, rfl⟩ := exec_cases hex
  · exact hp.even hwf hpc
  · exact hp.even hwf hpc
  · obtain ⟨-, -, rfl⟩ := State.memWrite_ok hu
    exact toNat_add_even hpc rfl
  · rwa [State.takeTrap_pc]

theorem step_pc_even {s t : State} (hpc : s.pc.toNat % 2 = 0) (h : step s = .next t) : t.pc.toNat % 2 = 0 :=
  step_keeps (P := fun u => u.pc.toNat % 2 = 0) h hpc (fun e => by rwa [State.takeTrap_pc])
    (fun _ _ hwf => exec_pc_even hwf hpc) (fun _ hu => hu)

/-- Settles O25: each part of the invariant is kept by the frame of a step. -/
theorem stepKeepsTheInvariant : Obligations.StepKeepsTheInvariant := fun _ _ h =>
  ⟨fun hs => hs.step h, fun hi => ⟨hi.sound.step h, step_pc_even hi.pcEven h⟩⟩

/-- Settles O2: memory lists nothing at reset, and the default parameters are legal. -/
theorem resetStateMeetsTheInvariant : Obligations.ResetStateMeetsTheInvariant where
  sound := {
    regZero := rfl
    memCanon := State.reset_mem_wf
    memInside := fun _ hc => absurd hc List.not_mem_nil
    params := by decide }
  pcEven := by decide

/-! ## Register writes (10_state R23) -/

theorem State.readReg_writeReg_same (s : State) (r : Reg) (v : Word) :
    (s.writeReg r v).readReg r = if r = 0#5 then 0#32 else v := by
  by_cases hr : r = 0#5
  · simp [hr]
  · simp [State.readReg_writeReg, hr]

theorem State.readReg_writeReg_of_ne (s : State) {r j : Reg} (v : Word) (h : j ≠ r) :
    (s.writeReg r v).readReg j = s.readReg j := by
  simp [State.readReg_writeReg, h]

/-- A register that an instruction changes is its destination, and not x[0]. -/
theorem exec_changes_only_dest {i : Instr} {s t : State} (h : exec i s = .next t) {j : Reg}
    (hj : t.readReg j ≠ s.readReg j) : destOf i = some j ∧ j ≠ 0#5 := by
  obtain ⟨rd, v, p, hd, -, -, rfl⟩ | ⟨p, -, -, -, rfl⟩ | ⟨a, n, v, u, -, -, hu, rfl⟩ | ⟨-, rfl⟩ := exec_cases h
  · rw [State.readReg_commit] at hj
    split at hj
    case isTrue hrd => obtain ⟨rfl, hne⟩ := hrd; exact ⟨hd, hne⟩
    case isFalse => exact absurd rfl hj
  · exact absurd (State.readReg_setPc s p j) hj
  · obtain ⟨-, -, rfl⟩ := State.memWrite_ok hu
    exact absurd rfl hj
  · exact absurd (State.readReg_takeTrap s _ j) hj

/-- The stores, the branches and ebreak are the instructions without a destination. -/
theorem destOf_eq_none_iff (i : Instr) :
    destOf i = none ↔ i = .ebreak ∨ (opcodeOf (encode i) = 0b0100011#7 ∨ opcodeOf (encode i) = 0b1100011#7) := by
  cases i <;> simp [destOf, encode]

/-- Settles O29. -/
theorem instructionWritesAtMostItsDestination : Obligations.InstructionWritesAtMostItsDestination :=
  ⟨fun s r v => ⟨s.readReg_writeReg_same r v, s.writeReg_zero v, fun _ hj => s.readReg_writeReg_of_ne v hj⟩,
    fun _ _ _ h _ hj => exec_changes_only_dest h hj, destOf_eq_none_iff⟩

/-! ## The Monitor's own state (10_state R38) -/

/-- The same machine with another run state, counter and crashed mark. -/
def State.withMonitor (s : State) (r : RunState) (k : Nat) (c : Bool) : State :=
  { s with runState := r, icount := k, crashed := c }

/-- A change of every next state of an outcome. -/
def mapNext (f : State → State) : Result → Result
  | .next t => .next (f t)
  | .fault e => .fault e
  | .refused e => .refused e

section WithMonitor

variable (s : State) (r : RunState) (k : Nat) (c : Bool)

@[simp] theorem State.withMonitor_params : (s.withMonitor r k c).params = s.params := rfl

@[simp] theorem State.readReg_withMonitor (j : Reg) : (s.withMonitor r k c).readReg j = s.readReg j := rfl

@[simp] theorem State.effAddr_withMonitor (rs1 : Reg) (imm : Word) :
    (s.withMonitor r k c).effAddr rs1 imm = s.effAddr rs1 imm := rfl

@[simp] theorem State.checkAccess_withMonitor (a : Word) (n : Nat) :
    (s.withMonitor r k c).checkAccess a n = s.checkAccess a n := rfl

@[simp] theorem State.memRead_withMonitor (a : Word) (n : Nat) : (s.withMonitor r k c).memRead a n = s.memRead a n := rfl

theorem State.writeReg_withMonitor (i : Reg) (v : Word) :
    (s.withMonitor r k c).writeReg i v = (s.writeReg i v).withMonitor r k c := by
  unfold State.writeReg
  split <;> rfl

theorem next_commit_withMonitor (rd : Reg) (v p : Word) :
    .next ((s.withMonitor r k c).commit rd v p) = mapNext (·.withMonitor r k c) (.next (s.commit rd v p)) := by
  rw [State.commit, State.writeReg_withMonitor]
  rfl

theorem State.memWrite_withMonitor (a : Word) (n v : Nat) :
    (s.withMonitor r k c).memWrite a n v = (s.memWrite a n v).map (·.withMonitor r k c) := by
  rw [State.memWrite, State.memWrite, State.checkAccess_withMonitor]
  cases s.checkAccess a n <;> rfl

theorem load_withMonitor (n : Nat) (ext : Nat → Word) (rd rs1 : Reg) (imm : Word) :
    load n ext rd rs1 imm (s.withMonitor r k c) = mapNext (·.withMonitor r k c) (load n ext rd rs1 imm s) := by
  rw [load, load, State.memRead_withMonitor, State.effAddr_withMonitor]
  cases s.memRead (s.effAddr rs1 imm) n with
  | error f => rfl
  | ok v => exact next_commit_withMonitor ..

theorem store_withMonitor (n : Nat) (rs1 rs2 : Reg) (imm : Word) :
    store n rs1 rs2 imm (s.withMonitor r k c) = mapNext (·.withMonitor r k c) (store n rs1 rs2 imm s) := by
  rw [store, store, State.memWrite_withMonitor, State.effAddr_withMonitor, State.readReg_withMonitor]
  cases s.memWrite (s.effAddr rs1 imm) n (s.readReg rs2).toNat <;> rfl

theorem divide_withMonitor (corner : Option DivCorner) (cr : DivCorner → Word) (v : Word) (rd : Reg) :
    divide corner cr v rd (s.withMonitor r k c) = mapNext (·.withMonitor r k c) (divide corner cr v rd s) := by
  rw [divide_eq, divide_eq, State.withMonitor_params]
  cases corner with
  | none => exact next_commit_withMonitor ..
  | some corner =>
    cases s.params.divPolicy with
    | riscv => exact next_commit_withMonitor ..
    | fatal => rfl

theorem branchIf_withMonitor (b : Bool) (imm : Word) :
    branchIf b imm (s.withMonitor r k c) = mapNext (·.withMonitor r k c) (branchIf b imm s) := by
  rw [branchIf_eq, branchIf_eq]
  rfl

/-- Every instruction but ebreak carries the Monitor's state along. -/
theorem exec_withMonitor {i : Instr} (hi : i ≠ .ebreak) :
    exec i (s.withMonitor r k c) = mapNext (·.withMonitor r k c) (exec i s) := by
  cases i with
  | beq => exact branchIf_withMonitor ..
  | bne => exact branchIf_withMonitor ..
  | blt => exact branchIf_withMonitor ..
  | bge => exact branchIf_withMonitor ..
  | bltu => exact branchIf_withMonitor ..
  | bgeu => exact branchIf_withMonitor ..
  | lb => exact load_withMonitor ..
  | lh => exact load_withMonitor ..
  | lw => exact load_withMonitor ..
  | lbu => exact load_withMonitor ..
  | lhu => exact load_withMonitor ..
  | sb => exact store_withMonitor ..
  | sh => exact store_withMonitor ..
  | sw => exact store_withMonitor ..
  | div => exact divide_withMonitor ..
  | divu => exact divide_withMonitor ..
  | rem => exact divide_withMonitor ..
  | remu => exact divide_withMonitor ..
  | ebreak => exact absurd rfl hi
  | _ => exact next_commit_withMonitor ..

end WithMonitor

/-- Settles O31: ebreak by its one effect, every other instruction by `exec_withMonitor`. -/
theorem instructionsNeverSeeTheMonitor : Obligations.InstructionsNeverSeeTheMonitor := by
  intro i s r k c
  by_cases hi : i = .ebreak
  · subst hi
    rfl
  · rw [show exec i { s with runState := r, icount := k, crashed := c } = _ from exec_withMonitor s r k c hi]
    cases hex : exec i s with
    | next t => simp [mapNext, hi, State.withMonitor]
    | fault f => rfl
    | refused e => exact exec_ne_refused i s e hex

end Sys2Proof.Machine
end

section
/-! # Family 20_memory: the memory unit

A write's byte laws (`read_writeBytes_leBytes`, `read_writeBytes_outside`) give two laws of whole reads: a read inside what
was written (`memRead_inside_memWrite`) and a read beside it (`memRead_beside_memWrite`). The statements about round
trips, mixed widths and the fetch are their special cases. -/

namespace Sys2Proof.Machine

/-! ## Values of bytes (20_memory R54) -/

/-- The statements count bits, the model's lists count bytes. -/
theorem two_pow_eight_mul (k : Nat) : 2 ^ (8 * k) = 256 ^ k := pow_mul 2 8 k

theorem Memory.leValue_bytes (m : Memory) (a n : Nat) :
    leValue (m.bytes a n) = ∑ k ∈ Finset.range n, (m.read (a + k)).toNat * 256 ^ k := by
  induction n generalizing a with
  | zero => rfl
  | succ n ih =>
    rw [Memory.bytes, leValue, ih, Finset.sum_range_succ', Finset.mul_sum, Nat.add_comm]
    congr 1
    · refine Finset.sum_congr rfl fun k _ => ?_
      rw [Nat.add_right_comm a 1 k, Nat.add_assoc a k 1, pow_succ', Nat.mul_left_comm]
    · simp

/-! ## The bytes of a written value (20_memory R55) -/

theorem Memory.read_writeBytes_leBytes {m : Memory} (hm : m.wf = true) (a v : Nat) {n k : Nat} (hk : k < n) :
    (m.writeBytes a (leBytes n v)).read (a + k) = BitVec.ofNat 8 (v / 256 ^ k) := by
  rw [Memory.read_writeBytes m a (a + k) _ hm, dif_pos (by rw [length_leBytes]; omega)]
  simp only [Nat.add_sub_cancel_left]
  exact getElem_leBytes n v k hk

theorem Memory.read_writeBytes_outside {m : Memory} (hm : m.wf = true) {a b : Nat} (v : Nat) {n : Nat}
    (hb : b < a ∨ a + n ≤ b) : (m.writeBytes a (leBytes n v)).read b = m.read b := by
  rw [Memory.read_writeBytes m a b _ hm, dif_neg (by rw [length_leBytes]; omega)]

/-- Bytes `k` to `k + n - 1` of a written value are the low `n` bytes of the value shifted down. -/
theorem Memory.bytes_writeBytes_inside {m : Memory} (hm : m.wf = true) (a v : Nat) {k n l : Nat} (h : k + n ≤ l) :
    (m.writeBytes a (leBytes l v)).bytes (a + k) n = leBytes n (v / 256 ^ k) := by
  refine List.ext_getElem (by simp) fun i hi _ => ?_
  rw [Memory.length_bytes] at hi
  rw [Memory.getElem_bytes _ _ _ _ hi, getElem_leBytes _ _ _ hi, Nat.add_assoc,
    Memory.read_writeBytes_leBytes hm a v (by omega), pow_add, Nat.div_div_eq_div_mul]

theorem Memory.bytes_writeBytes_beside {m : Memory} (hm : m.wf = true) {a b : Nat} (v : Nat) {n l : Nat}
    (h : a + l ≤ b ∨ b + n ≤ a) : (m.writeBytes a (leBytes l v)).bytes b n = m.bytes b n := by
  refine List.ext_getElem (by simp) fun i hi _ => ?_
  rw [Memory.length_bytes] at hi
  rw [Memory.getElem_bytes _ _ _ _ hi, Memory.getElem_bytes _ _ _ _ hi,
    Memory.read_writeBytes_outside hm v (by omega)]

/-! ## What each operation answers (20_memory R52 to R55) -/

section Operations

variable {s t : State} {a b : Word} {n l v x : Nat}

theorem State.memRead_of_invalid (hn : ¬ validLength n) : s.memRead a n = .error (.lenFault n) := by
  rw [State.memRead, State.checkAccess, if_pos hn]

theorem State.memWrite_of_invalid (hn : ¬ validLength n) : s.memWrite a n v = .error (.lenFault n) := by
  rw [State.memWrite, State.checkAccess, if_pos hn]

theorem State.memRead_of_inRange (hn : validLength n) (hr : InRange s.params a.toNat n) :
    s.memRead a n = .ok (leValue (s.mem.bytes a.toNat n)) := by
  rw [State.memRead_eq s a n hn, if_pos hr]

theorem State.memRead_of_not_inRange (hn : validLength n) (hr : ¬ InRange s.params a.toNat n) :
    s.memRead a n = .error (.memFault a n) := by
  rw [State.memRead_eq s a n hn, if_neg hr]

theorem State.memWrite_of_inRange (hn : validLength n) (hr : InRange s.params a.toNat n) :
    s.memWrite a n v = .ok { s with mem := s.mem.writeBytes a.toNat (leBytes n v) } := by
  rw [State.memWrite_eq s a n v hn, if_pos hr]

theorem State.memWrite_of_not_inRange (hn : validLength n) (hr : ¬ InRange s.params a.toNat n) :
    s.memWrite a n v = .error (.memFault a n) := by
  rw [State.memWrite_eq s a n v hn, if_neg hr]

/-- All that a successful read says. -/
theorem State.memRead_ok (h : s.memRead a n = .ok x) :
    validLength n ∧ InRange s.params a.toNat n ∧ x = leValue (s.mem.bytes a.toNat n) := by
  unfold State.memRead at h
  split at h
  case h_1 => cases h
  case h_2 hc =>
    obtain ⟨hn, hr⟩ := (State.checkAccess_ok_iff s a n).1 hc
    cases h
    exact ⟨hn, hr, rfl⟩

/-- A successful write changes nothing but bytes of memory. -/
theorem State.memWrite_frame (h : s.memWrite a n v = .ok t) : SameRegs s t ∧ t.pc = s.pc ∧ SameMonitor s t := by
  obtain ⟨-, -, rfl⟩ := State.memWrite_ok h
  exact ⟨fun _ => rfl, rfl, rfl, rfl, rfl, rfl⟩

theorem State.memWrite_mem (h : s.memWrite a n v = .ok t) : t.mem = s.mem.writeBytes a.toNat (leBytes n v) := by
  obtain ⟨-, -, rfl⟩ := State.memWrite_ok h
  rfl

theorem State.memWrite_params (h : s.memWrite a n v = .ok t) : t.params = s.params := by
  obtain ⟨-, -, -, -, -, hparams⟩ := State.memWrite_frame h
  exact hparams

theorem State.memWrite_read_outside (hs : s.mem.wf = true) (h : s.memWrite a n v = .ok t) {c : Nat}
    (hc : c < a.toNat ∨ a.toNat + n ≤ c) : t.mem.read c = s.mem.read c := by
  rw [State.memWrite_mem h, Memory.read_writeBytes_outside hs v hc]

/-! ## Reads after a write (20_memory R56, R57) -/

/-- A read inside the bytes just written sees those bytes of the value. -/
theorem State.memRead_inside_memWrite (hs : s.mem.wf = true) (h : s.memWrite a l v = .ok t) {k : Nat}
    (hb : b.toNat = a.toNat + k) (hn : validLength n) (hk : k + n ≤ l) :
    t.memRead b n = .ok (v / 256 ^ k % 256 ^ n) := by
  obtain ⟨-, hr, -⟩ := State.memWrite_ok h
  have hin : InRange t.params b.toNat n := by rw [State.memWrite_params h]; omega
  rw [State.memRead_of_inRange hn hin, State.memWrite_mem h, hb, Memory.bytes_writeBytes_inside hs a.toNat v hk, leValue_leBytes]

theorem State.memRead_same_memWrite (hs : s.mem.wf = true) (h : s.memWrite a n v = .ok t) :
    t.memRead a n = .ok (v % 256 ^ n) := by
  obtain ⟨hn, -, -⟩ := State.memWrite_ok h
  simpa using State.memRead_inside_memWrite hs h (k := 0) rfl hn (by omega)

/-- A read beside the bytes just written gives what it gave before. -/
theorem State.memRead_beside_memWrite (hs : s.mem.wf = true) (h : s.memWrite a l v = .ok t)
    (hread : s.memRead b n = .ok x) (hb : a.toNat + l ≤ b.toNat ∨ b.toNat + n ≤ a.toNat) : t.memRead b n = .ok x := by
  obtain ⟨hn, hr, rfl⟩ := State.memRead_ok hread
  have hin : InRange t.params b.toNat n := by rwa [State.memWrite_params h]
  rw [State.memRead_of_inRange hn hin, State.memWrite_mem h, Memory.bytes_writeBytes_beside hs v hb]

/-! ## The fetch and the step it begins (20_memory R60) -/

theorem State.fetch_of_memRead_ok (h : s.memRead s.pc 4 = .ok x) : s.fetch = .ok (BitVec.ofNat 32 x) := by
  rw [State.fetch, h]

theorem State.fetch_of_memRead_error {f : Fault} (h : s.memRead s.pc 4 = .error f) : s.fetch = .error f := by
  rw [State.fetch, h]

theorem State.memRead_lt (h : s.memRead a n = .ok x) : x < 256 ^ n := by
  obtain ⟨-, -, rfl⟩ := State.memRead_ok h
  simpa using leValue_lt (s.mem.bytes a.toNat n)

/-- A word stored at the pc is what the next fetch gives (20_memory R57, R67). -/
theorem State.fetch_of_memWrite (hs : s.mem.wf = true) {w : Word} (h : s.memWrite a 4 w.toNat = .ok t) (hpc : t.pc = a) :
    t.fetch = .ok w := by
  subst hpc
  have hlt : w.toNat < 256 ^ 4 := w.isLt
  rw [State.fetch_of_memRead_ok (State.memRead_same_memWrite hs h), Nat.mod_eq_of_lt hlt, BitVec.ofNat_toNat,
    BitVec.setWidth_eq]

theorem State.canStep.congr (hs : s.canStep) (h : SameMonitor s t) : t.canStep := by
  obtain ⟨hlive, hcan⟩ := hs
  obtain ⟨hrun, -, hcrashed, -⟩ := h
  exact ⟨hcrashed.trans hlive, by rwa [hrun]⟩

theorem engineStep_of_decode {w : Word} {i : Instr} (hf : s.fetch = .ok w) (hd : decode w = .ok i) :
    engineStep s = exec i s := by
  simp only [engineStep, hf, hd]

/-- A fault of the fetch crashes the machine as it stands (60_exceptions R246). -/
theorem step_of_fetch_error {f : Fault} (hs : s.canStep) (hf : s.fetch = .error f) :
    step s = .next (s.takeTrap (.fatal f)) := by
  rw [step_of_canStep hs, engineStep, hf]
  rfl

/-! ## The placed word -/

theorem State.withFetchWord_toNat (s : State) (w : Word) : s.withFetchWord 32 w.toNat = s.placeWord w := by
  rw [State.withFetchWord, Nat.mod_eq_of_lt w.isLt, BitVec.ofNat_toNat, BitVec.setWidth_eq]

/-- Placing a word in range is a 4-byte write at the pc. -/
theorem State.memWrite_placeWord (hr : InRange s.params s.pc.toNat 4) (w : Word) :
    s.memWrite s.pc 4 w.toNat = .ok (s.placeWord w) := by
  rw [State.placeWord_eq, if_pos hr]
  exact State.memWrite_of_inRange (by decide) hr

/-! ## Addresses -/

/-- In a legal memory the address of a byte of an access does not wrap (00_scope R6, 20_memory R53). -/
theorem toNat_add_ofNat_of_inRange {p : Params} (hp : p.wf = true) (hr : InRange p a.toNat n) {k : Nat} (hk : k < n) :
    (a + BitVec.ofNat 32 k).toNat = a.toNat + k := by
  have hfits : p.memBase.toNat + p.memSize ≤ 2 ^ 32 := (of_decide_eq_true hp).2.1
  rw [BitVec.toNat_add, BitVec.toNat_ofNat]
  omega

end Operations

/-! ## The statements -/

/-- Settles O8: the three branches of a read. -/
theorem memReadIsTheLittleEndianSum : Obligations.MemReadIsTheLittleEndianSum := by
  refine fun s a n => ⟨State.memRead_of_invalid, State.memRead_of_not_inRange, fun hn hr => ?_⟩
  rw [State.memRead_of_inRange hn hr, Memory.leValue_bytes]
  simp only [two_pow_eight_mul]

/-- Settles O9: the three branches of a write, the last one byte by byte. -/
theorem memWriteStoresTheLowBytes : Obligations.MemWriteStoresTheLowBytes := by
  refine fun s a n v hs => ⟨State.memWrite_of_invalid, State.memWrite_of_not_inRange, fun hn hr => ?_⟩
  have hw := State.memWrite_of_inRange (v := v) hn hr
  refine ⟨_, hw, fun k hk => ?_, fun b hb => State.memWrite_read_outside hs hw hb, State.memWrite_frame hw⟩
  rw [Memory.read_writeBytes_leBytes hs a.toNat v hk, BitVec.toNat_ofNat, two_pow_eight_mul]

/-- Settles O10: a read of what was just written, and a read beside what was just written. -/
theorem memoryRoundTrip : Obligations.MemoryRoundTrip := by
  constructor
  · intro s a n v hs hn hr
    have hw := State.memWrite_of_inRange (v := v) hn hr
    refine ⟨_, hw, State.memWrite_wf hw hs, ?_⟩
    rw [State.memRead_same_memWrite hs hw, two_pow_eight_mul]
  · intro t u a b n m w x ht hread hw hdisjoint
    exact ⟨State.memWrite_wf hw ht, State.memRead_beside_memWrite ht hw hread hdisjoint⟩

/-- Settles O11: each access is a read inside the stored word. -/
theorem mixedWidthAccessesSeeTheBytes : Obligations.MixedWidthAccessesSeeTheBytes := by
  intro s t a w hs hp hw
  obtain ⟨-, hr, -⟩ := State.memWrite_ok hw
  have inside (k n : Nat) (hn : validLength n) (hk : k + n ≤ 4) :
      t.memRead (a + BitVec.ofNat 32 k) n = .ok (w.toNat / 2 ^ (8 * k) % 2 ^ (8 * n)) := by
    rw [two_pow_eight_mul, two_pow_eight_mul]
    exact State.memRead_inside_memWrite hs hw (toNat_add_ofNat_of_inRange hp hr (by omega)) hn hk
  exact ⟨fun k hk => inside k 1 (by decide) (by omega), fun k hk => inside k 2 (by decide) (by omega),
    fun hpc => State.fetch_of_memWrite hs hw hpc.symm⟩

/-- Settles O19: placing the word is a write at the pc, so the fetch gives the word back. -/
theorem stepRunsThePlacedWord : Obligations.StepRunsThePlacedWord := by
  intro s w i hs hm hr hd
  rw [State.withFetchWord_toNat]
  have hw := State.memWrite_placeWord hr w
  obtain ⟨hregs, hpc, hmon⟩ := State.memWrite_frame hw
  refine ⟨?_, ⟨hregs, hpc, fun _ => rfl, hmon⟩, fun c hc => State.memWrite_read_outside hm hw hc⟩
  rw [step_of_canStep (hs.congr hmon), engineStep_of_decode (State.fetch_of_memWrite hm hw hpc) hd]

/-- Settles O22: the fetch follows the read in each of its branches. -/
theorem fetchIsAReadAtThePc : Obligations.FetchIsAReadAtThePc := by
  intro s
  refine ⟨fun _ => State.fetch_of_memRead_ok, fun _ => State.fetch_of_memRead_error, fun hr => ?_, fun hs hr => ?_⟩
  · have hread := State.memRead_of_inRange (n := 4) (by decide) hr
    exact ⟨_, hread, State.memRead_lt hread⟩
  · have hfetch := State.fetch_of_memRead_error (State.memRead_of_not_inRange (n := 4) (by decide) hr)
    exact ⟨hfetch, step_of_fetch_error hs hfetch⟩

end Sys2Proof.Machine
end

section
/-! # Family 30_encoding: the immediates, and decode against encode and the opcode table

Every bit of an immediate is a bit of the word (`getLsbD_immI` to `getLsbD_immJ`). From these layouts, format by format,
the immediate of an encoding is the one encoded (`immI_encodeI` and the others, for decode after encode), and a word is the
encoding of its own fields (`encodeI_fields` and the others, for encode after decode). The table follows: a word that matches
a row agrees with that row's encoding on every field that the row fixes (`field_eq_of_matches`). -/

namespace Sys2Proof

/-! ## The bits of the immediates (30_encoding R90 to R94) -/

/-- Above its top bit, a sign extension repeats that bit. -/
theorem getLsbD_signExtend_min {n : Nat} (hn : 0 < n) (x : BitVec n) {k : Nat} (hk : k < 32) :
    (x.signExtend 32).getLsbD k = x.getLsbD (min k (n - 1)) := by
  rw [BitVec.getLsbD_signExtend, BitVec.msb_eq_getLsbD_last]
  by_cases h : k < n
  · rw [Nat.min_eq_left (show k ≤ n - 1 by omega)]
    simp [hk, h]
  · simp [hk, h, Nat.min_eq_right (show n - 1 ≤ k by omega)]

section Layouts

variable (w : Word) {k : Nat} (hk : k < 32)
include hk

/-- R90. -/
theorem getLsbD_immI : (immI w).getLsbD k = if k < 11 then w.getLsbD (k + 20) else w.getLsbD 31 := by
  rw [immI, getLsbD_signExtend_min (by decide) _ hk]
  interval_cases k <;> simp

/-- R91. -/
theorem getLsbD_immS : (immS w).getLsbD k =
    if k < 5 then w.getLsbD (k + 7) else if k < 11 then w.getLsbD (k + 20) else w.getLsbD 31 := by
  rw [immS, getLsbD_signExtend_min (by decide) _ hk]
  simp only [BitVec.getLsbD_append, BitVec.getLsbD_extractLsb']
  interval_cases k <;> simp

/-- R92. -/
theorem getLsbD_immB : (immB w).getLsbD k =
    if k = 0 then false else if k < 5 then w.getLsbD (k + 7) else if k < 11 then w.getLsbD (k + 20)
    else if k = 11 then w.getLsbD 7 else w.getLsbD 31 := by
  rw [immB, getLsbD_signExtend_min (by decide) _ hk]
  simp only [BitVec.getLsbD_append, bitOf, BitVec.getLsbD_extractLsb']
  interval_cases k <;> simp

/-- R93. -/
theorem getLsbD_immU : (immU w).getLsbD k = if k < 12 then false else w.getLsbD k := by
  change BitVec.getLsbD (w.extractLsb' 12 20 ++ 0#12) k = _
  rw [BitVec.getLsbD_append]
  split_ifs with h
  · simp
  · simp [Nat.add_sub_cancel' (not_lt.mp h)]; omega

/-- R94. -/
theorem getLsbD_immJ : (immJ w).getLsbD k =
    if k = 0 then false else if k < 11 then w.getLsbD (k + 20) else if k = 11 then w.getLsbD 20
    else if k < 20 then w.getLsbD k else w.getLsbD 31 := by
  rw [immJ, getLsbD_signExtend_min (by decide) _ hk]
  simp only [BitVec.getLsbD_append, bitOf, BitVec.getLsbD_extractLsb']
  interval_cases k <;> simp

end Layouts

/-! ## The bits of an immediate that fits its format -/

/-- A word in the signed range of `n + 1` bits repeats bit `n` above it. -/
theorem getLsbD_eq_of_toInt_range {imm : Word} {n : Nat} (hn : n < 32) (hlo : -2 ^ n ≤ imm.toInt)
    (hhi : imm.toInt < 2 ^ n) {k : Nat} (hnk : n ≤ k) (hk : k < 32) : imm.getLsbD k = imm.getLsbD n := by
  have hext : (BitVec.ofInt (n + 1) imm.toInt).signExtend 32 = imm := by
    apply BitVec.eq_of_toInt_eq
    rw [BitVec.toInt_signExtend_of_le (by omega), BitVec.toInt_ofInt_eq_self (by omega) hlo hhi]
  rw [← hext, getLsbD_signExtend_min (by omega) _ hk, getLsbD_signExtend_min (by omega) _ hn]
  congr 1
  omega

theorem getLsbD_of_fitsImm12 {imm : Word} (h : fitsImm12 imm = true) {k : Nat} (hk : 11 ≤ k) (hk' : k < 32) :
    imm.getLsbD k = imm.getLsbD 11 := by
  obtain ⟨hlo, hhi⟩ := of_decide_eq_true h
  exact getLsbD_eq_of_toInt_range (by decide) (by omega) (by omega) hk hk'

theorem getLsbD_of_fitsImmB {imm : Word} (h : fitsImmB imm = true) {k : Nat} (hk : 12 ≤ k) (hk' : k < 32) :
    imm.getLsbD k = imm.getLsbD 12 := by
  obtain ⟨hlo, hhi, -⟩ := of_decide_eq_true h
  exact getLsbD_eq_of_toInt_range (by decide) (by omega) (by omega) hk hk'

theorem getLsbD_of_fitsImmJ {imm : Word} (h : fitsImmJ imm = true) {k : Nat} (hk : 20 ≤ k) (hk' : k < 32) :
    imm.getLsbD k = imm.getLsbD 20 := by
  obtain ⟨hlo, hhi, -⟩ := of_decide_eq_true h
  exact getLsbD_eq_of_toInt_range (by decide) (by omega) (by omega) hk hk'

theorem getLsbD_zero_of_even {imm : Word} (h : imm.toNat % 2 = 0) : imm.getLsbD 0 = false := by
  simpa [BitVec.getLsbD, Nat.testBit_zero] using h

theorem getLsbD_of_fitsImmU {imm : Word} (h : fitsImmU imm = true) {k : Nat} (hk : k < 12) : imm.getLsbD k = false := by
  have hlow : imm.toNat % 2 ^ 12 = 0 := of_decide_eq_true h
  rw [BitVec.getLsbD, ← Nat.mod_add_div imm.toNat (2 ^ 12), hlow, zero_add, Nat.testBit_two_pow_mul]
  simp [hk]

/-! ## The fields of an encoding, format by format (30_encoding R83) -/

section EncodedFields
variable (funct7 : BitVec 7) (funct3 : BitVec 3) (op : BitVec 7) (rd rs1 rs2 : Reg) (imm : Word)

@[simp] theorem funct7Of_encodeR : funct7Of (encodeR funct7 funct3 op rd rs1 rs2) = funct7 := funct7Of_assemble ..
@[simp] theorem funct3Of_encodeR : funct3Of (encodeR funct7 funct3 op rd rs1 rs2) = funct3 := funct3Of_assemble ..
@[simp] theorem rdOf_encodeR : rdOf (encodeR funct7 funct3 op rd rs1 rs2) = rd := rdOf_assemble ..
@[simp] theorem rs1Of_encodeR : rs1Of (encodeR funct7 funct3 op rd rs1 rs2) = rs1 := rs1Of_assemble ..
@[simp] theorem rs2Of_encodeR : rs2Of (encodeR funct7 funct3 op rd rs1 rs2) = rs2 := rs2Of_assemble ..
@[simp] theorem shamtOf_encodeR : shamtOf (encodeR funct7 funct3 op rd rs1 rs2) = rs2 := shamtOf_assemble ..

@[simp] theorem funct3Of_encodeI : funct3Of (encodeI funct3 op rd rs1 imm) = funct3 := funct3Of_assemble ..
@[simp] theorem rdOf_encodeI : rdOf (encodeI funct3 op rd rs1 imm) = rd := rdOf_assemble ..
@[simp] theorem rs1Of_encodeI : rs1Of (encodeI funct3 op rd rs1 imm) = rs1 := rs1Of_assemble ..

@[simp] theorem funct3Of_encodeS : funct3Of (encodeS funct3 rs1 rs2 imm) = funct3 := funct3Of_assemble ..
@[simp] theorem rs1Of_encodeS : rs1Of (encodeS funct3 rs1 rs2 imm) = rs1 := rs1Of_assemble ..
@[simp] theorem rs2Of_encodeS : rs2Of (encodeS funct3 rs1 rs2 imm) = rs2 := rs2Of_assemble ..

@[simp] theorem funct3Of_encodeB : funct3Of (encodeB funct3 rs1 rs2 imm) = funct3 := funct3Of_assemble ..
@[simp] theorem rs1Of_encodeB : rs1Of (encodeB funct3 rs1 rs2 imm) = rs1 := rs1Of_assemble ..
@[simp] theorem rs2Of_encodeB : rs2Of (encodeB funct3 rs1 rs2 imm) = rs2 := rs2Of_assemble ..

@[simp] theorem rdOf_encodeU : rdOf (encodeU op rd imm) = rd := rdOf_assemble ..

@[simp] theorem rdOf_encodeJ : rdOf (encodeJ rd imm) = rd := rdOf_assemble ..

end EncodedFields

/-! ## The immediate of an encoding is the one encoded, bit by bit -/

theorem immI_encodeI {imm : Word} (h : fitsImm12 imm = true) (funct3 : BitVec 3) (op : BitVec 7) (rd rs1 : Reg) :
    immI (encodeI funct3 op rd rs1 imm) = imm := by
  apply BitVec.eq_of_getLsbD_eq
  intro k hk
  have hhigh := getLsbD_of_fitsImm12 h (k := k)
  rw [getLsbD_immI _ hk]
  simp only [encodeI, getLsbD_assemble, BitVec.getLsbD_extractLsb']
  interval_cases k <;> simp_all

theorem immS_encodeS {imm : Word} (h : fitsImm12 imm = true) (funct3 : BitVec 3) (rs1 rs2 : Reg) :
    immS (encodeS funct3 rs1 rs2 imm) = imm := by
  apply BitVec.eq_of_getLsbD_eq
  intro k hk
  have hhigh := getLsbD_of_fitsImm12 h (k := k)
  rw [getLsbD_immS _ hk]
  simp only [encodeS, getLsbD_assemble, BitVec.getLsbD_extractLsb']
  interval_cases k <;> simp_all

theorem immB_encodeB {imm : Word} (h : fitsImmB imm = true) (funct3 : BitVec 3) (rs1 rs2 : Reg) :
    immB (encodeB funct3 rs1 rs2 imm) = imm := by
  apply BitVec.eq_of_getLsbD_eq
  intro k hk
  obtain ⟨-, -, heven⟩ := of_decide_eq_true h
  have hzero := getLsbD_zero_of_even heven
  have hhigh := getLsbD_of_fitsImmB h (k := k)
  rw [getLsbD_immB _ hk]
  simp only [encodeB, getLsbD_assemble, BitVec.getLsbD_append, BitVec.getLsbD_extractLsb']
  interval_cases k <;> simp_all

theorem immU_encodeU {imm : Word} (h : fitsImmU imm = true) (op : BitVec 7) (rd : Reg) :
    immU (encodeU op rd imm) = imm := by
  apply BitVec.eq_of_getLsbD_eq
  intro k hk
  have hlow := getLsbD_of_fitsImmU h (k := k)
  rw [getLsbD_immU _ hk]
  simp only [encodeU, getLsbD_assemble, BitVec.getLsbD_extractLsb']
  interval_cases k <;> simp_all

theorem immJ_encodeJ {imm : Word} (h : fitsImmJ imm = true) (rd : Reg) : immJ (encodeJ rd imm) = imm := by
  apply BitVec.eq_of_getLsbD_eq
  intro k hk
  obtain ⟨-, -, heven⟩ := of_decide_eq_true h
  have hzero := getLsbD_zero_of_even heven
  have hhigh := getLsbD_of_fitsImmJ h (k := k)
  rw [getLsbD_immJ _ hk]
  simp only [encodeJ, getLsbD_assemble, BitVec.getLsbD_append, BitVec.getLsbD_extractLsb']
  interval_cases k <;> simp_all

/-! ## A word is the encoding of its fields, bit by bit -/

section FieldsEncode
variable {w : Word} {funct7 : BitVec 7} {funct3 : BitVec 3} {op : BitVec 7}

theorem encodeR_fields (h7 : funct7Of w = funct7) (h3 : funct3Of w = funct3) (hop : opcodeOf w = op) :
    encodeR funct7 funct3 op (rdOf w) (rs1Of w) (rs2Of w) = w := by
  rw [encodeR, ← h7, ← h3, ← hop, assemble_fields]

theorem encodeI_fields (h3 : funct3Of w = funct3) (hop : opcodeOf w = op) :
    encodeI funct3 op (rdOf w) (rs1Of w) (immI w) = w := by
  rw [encodeI, ← h3, ← hop]
  apply BitVec.eq_of_getLsbD_eq
  intro k hk
  simp only [getLsbD_assemble, funct3Of, rs1Of, rdOf, opcodeOf, BitVec.getLsbD_extractLsb']
  interval_cases k <;> simp [getLsbD_immI, -BitVec.getLsbD_eq_getElem]

theorem encodeS_fields (h3 : funct3Of w = funct3) (hop : opcodeOf w = 0b0100011#7) :
    encodeS funct3 (rs1Of w) (rs2Of w) (immS w) = w := by
  rw [encodeS, ← h3, ← hop]
  apply BitVec.eq_of_getLsbD_eq
  intro k hk
  simp only [getLsbD_assemble, funct3Of, rs1Of, rs2Of, opcodeOf, BitVec.getLsbD_extractLsb']
  interval_cases k <;> simp [getLsbD_immS, -BitVec.getLsbD_eq_getElem]

theorem encodeB_fields (h3 : funct3Of w = funct3) (hop : opcodeOf w = 0b1100011#7) :
    encodeB funct3 (rs1Of w) (rs2Of w) (immB w) = w := by
  rw [encodeB, ← h3, ← hop]
  apply BitVec.eq_of_getLsbD_eq
  intro k hk
  simp only [getLsbD_assemble, funct3Of, rs1Of, rs2Of, opcodeOf, BitVec.getLsbD_append, BitVec.getLsbD_extractLsb']
  interval_cases k <;> simp [getLsbD_immB, -BitVec.getLsbD_eq_getElem]

theorem encodeU_fields (hop : opcodeOf w = op) : encodeU op (rdOf w) (immU w) = w := by
  rw [encodeU, ← hop]
  apply BitVec.eq_of_getLsbD_eq
  intro k hk
  simp only [getLsbD_assemble, rdOf, opcodeOf, BitVec.getLsbD_extractLsb']
  interval_cases k <;> simp [getLsbD_immU, -BitVec.getLsbD_eq_getElem]

theorem encodeJ_fields (hop : opcodeOf w = 0b1101111#7) : encodeJ (rdOf w) (immJ w) = w := by
  rw [encodeJ, ← hop]
  apply BitVec.eq_of_getLsbD_eq
  intro k hk
  simp only [getLsbD_assemble, rdOf, opcodeOf, BitVec.getLsbD_append, BitVec.getLsbD_extractLsb']
  interval_cases k <;> simp [getLsbD_immJ, -BitVec.getLsbD_eq_getElem]

end FieldsEncode

/-! ## Decode, opcode by opcode (30_encoding R101) -/

section DecodeByOpcode
variable {w : Word}

theorem decode_lui (h : opcodeOf w = 0b0110111#7) : decode w = .ok (.lui (rdOf w) (immU w)) := by simp [decode, h]

theorem decode_auipc (h : opcodeOf w = 0b0010111#7) : decode w = .ok (.auipc (rdOf w) (immU w)) := by simp [decode, h]

theorem decode_jal (h : opcodeOf w = 0b1101111#7) : decode w = .ok (.jal (rdOf w) (immJ w)) := by simp [decode, h]

theorem decode_jalr (h : opcodeOf w = 0b1100111#7) :
    decode w = if funct3Of w = 0b000#3 then .ok (.jalr (rdOf w) (rs1Of w) (immI w)) else .error .jalrFunct3 := by
  simp [decode, h]

theorem decode_branch (h : opcodeOf w = 0b1100011#7) : decode w = decodeBranch w := by simp [decode, h]

theorem decode_load (h : opcodeOf w = 0b0000011#7) : decode w = decodeLoad w := by simp [decode, h]

theorem decode_store (h : opcodeOf w = 0b0100011#7) : decode w = decodeStore w := by simp [decode, h]

theorem decode_opImm (h : opcodeOf w = 0b0010011#7) : decode w = decodeOpImm w := by simp [decode, h]

theorem decode_op (h : opcodeOf w = 0b0110011#7) : decode w = decodeOp w := by simp [decode, h]

theorem decode_system (h : opcodeOf w = 0b1110011#7) :
    decode w = if w = 0x00100073#32 then .ok .ebreak else .error .system := by simp [decode, h]

end DecodeByOpcode

/-! ## Decode after encode -/

theorem decode_encode {i : Instr} (h : i.wellFormed = true) : decode (encode i) = .ok i := by
  cases i with
  | lui rd imm => simp [encode, decode_lui, immU_encodeU h]
  | auipc rd imm => simp [encode, decode_auipc, immU_encodeU h]
  | jal rd imm => simp [encode, decode_jal, immJ_encodeJ h]
  | jalr rd rs1 imm => simp [encode, decode_jalr, immI_encodeI h]
  | beq | bne | blt | bge | bltu | bgeu => simp [encode, decode_branch, decodeBranch, immB_encodeB h]
  | lb | lh | lw | lbu | lhu => simp [encode, decode_load, decodeLoad, immI_encodeI h]
  | sb | sh | sw => simp [encode, decode_store, decodeStore, immS_encodeS h]
  | addi | slti | sltiu | xori | ori | andi => simp [encode, decode_opImm, decodeOpImm, immI_encodeI h]
  | slli | srli | srai => simp [encode, decode_opImm, decodeOpImm]
  | add | sll | slt | sltu | xor | srl | or | and => simp [encode, decode_op, decodeOp, decodeOpBase]
  | mul | mulh | mulhsu | mulhu | div | divu | rem | remu => simp [encode, decode_op, decodeOp, decodeMulDiv]
  | sub | sra => simp [encode, decode_op, decodeOp]
  | ebreak => decide

theorem wordOfBytes_bytesOfWord (w : Word) :
    wordOfBytes (w.extractLsb' 0 8) (w.extractLsb' 8 8) (w.extractLsb' 16 8) (w.extractLsb' 24 8) = w := by
  apply BitVec.eq_of_getLsbD_eq
  intro k hk
  change BitVec.getLsbD (w.extractLsb' 24 8 ++ w.extractLsb' 16 8 ++ w.extractLsb' 8 8 ++ w.extractLsb' 0 8) k = _
  simp only [BitVec.getLsbD_append, BitVec.getLsbD_extractLsb']
  interval_cases k <;> simp

theorem decodeBytes_bytesOfWord {w : Word} {i : Instr} (h : decode w = .ok i) (rest : List Byte) :
    decodeBytes (bytesOfWord w ++ rest) = .ok (i, rest) := by
  simp only [bytesOfWord, List.cons_append, List.nil_append, decodeBytes, wordOfBytes_bytesOfWord, h]

/-! ## Encode after decode: each selector test that answers fixes a field (30_encoding R102 to R106) -/

theorem eq_seven_of_ne {x : BitVec 3} (h0 : x ≠ 0#3) (h1 : x ≠ 1#3) (h2 : x ≠ 2#3) (h3 : x ≠ 3#3) (h4 : x ≠ 4#3)
    (h5 : x ≠ 5#3) (h6 : x ≠ 6#3) : x = 7#3 := by
  bv_omega

section EncodeOfDecode
variable {w : Word} {i : Instr}

theorem encode_of_decodeBranch (hop : opcodeOf w = 0b1100011#7) (h : decodeBranch w = .ok i) : encode i = w := by
  iterate 6
    obtain ⟨h3, ⟨⟩⟩ | ⟨-, h⟩ := ite_eq_iff.mp h
    · exact encodeB_fields h3 hop
  cases h

theorem encode_of_decodeLoad (hop : opcodeOf w = 0b0000011#7) (h : decodeLoad w = .ok i) : encode i = w := by
  iterate 5
    obtain ⟨h3, ⟨⟩⟩ | ⟨-, h⟩ := ite_eq_iff.mp h
    · exact encodeI_fields h3 hop
  cases h

theorem encode_of_decodeStore (hop : opcodeOf w = 0b0100011#7) (h : decodeStore w = .ok i) : encode i = w := by
  iterate 3
    obtain ⟨h3, ⟨⟩⟩ | ⟨-, h⟩ := ite_eq_iff.mp h
    · exact encodeS_fields h3 hop
  cases h

theorem encode_of_decodeOpImm (hop : opcodeOf w = 0b0010011#7) (h : decodeOpImm w = .ok i) : encode i = w := by
  iterate 6
    obtain ⟨h3, ⟨⟩⟩ | ⟨-, h⟩ := ite_eq_iff.mp h
    · exact encodeI_fields h3 hop
  iterate 3
    obtain ⟨⟨h3, h7⟩, ⟨⟩⟩ | ⟨-, h⟩ := ite_eq_iff.mp h
    · exact encodeR_fields h7 h3 hop
  cases h

theorem encode_decodeOpBase (hop : opcodeOf w = 0b0110011#7) (h7 : funct7Of w = 0b0000000#7) :
    encode (decodeOpBase w) = w := by
  unfold decodeOpBase
  split_ifs with h3 h3 h3 h3 h3 h3 h3
  iterate 7 exact encodeR_fields h7 h3 hop
  exact encodeR_fields h7 (eq_seven_of_ne ‹_› ‹_› ‹_› ‹_› ‹_› ‹_› ‹_›) hop

theorem encode_decodeMulDiv (hop : opcodeOf w = 0b0110011#7) (h7 : funct7Of w = 0b0000001#7) :
    encode (decodeMulDiv w) = w := by
  unfold decodeMulDiv
  split_ifs with h3 h3 h3 h3 h3 h3 h3
  iterate 7 exact encodeR_fields h7 h3 hop
  exact encodeR_fields h7 (eq_seven_of_ne ‹_› ‹_› ‹_› ‹_› ‹_› ‹_› ‹_›) hop

theorem encode_of_decodeOp (hop : opcodeOf w = 0b0110011#7) (h : decodeOp w = .ok i) : encode i = w := by
  obtain ⟨h7, ⟨⟩⟩ | ⟨-, h⟩ := ite_eq_iff.mp h
  · exact encode_decodeOpBase hop h7
  obtain ⟨h7, ⟨⟩⟩ | ⟨-, h⟩ := ite_eq_iff.mp h
  · exact encode_decodeMulDiv hop h7
  iterate 2
    obtain ⟨⟨h7, h3⟩, ⟨⟩⟩ | ⟨-, h⟩ := ite_eq_iff.mp h
    · exact encodeR_fields h7 h3 hop
  cases h

theorem encode_of_decode (h : decode w = .ok i) : encode i = w := by
  obtain ⟨hop, ⟨⟩⟩ | ⟨-, h⟩ := ite_eq_iff.mp h
  · exact encodeU_fields hop
  obtain ⟨hop, ⟨⟩⟩ | ⟨-, h⟩ := ite_eq_iff.mp h
  · exact encodeU_fields hop
  obtain ⟨hop, ⟨⟩⟩ | ⟨-, h⟩ := ite_eq_iff.mp h
  · exact encodeJ_fields hop
  obtain ⟨hop, hi⟩ | ⟨-, h⟩ := ite_eq_iff.mp h
  · obtain ⟨h3, ⟨⟩⟩ | ⟨-, ⟨⟩⟩ := ite_eq_iff.mp hi
    exact encodeI_fields h3 hop
  obtain ⟨hop, hi⟩ | ⟨-, h⟩ := ite_eq_iff.mp h
  · exact encode_of_decodeBranch hop hi
  obtain ⟨hop, hi⟩ | ⟨-, h⟩ := ite_eq_iff.mp h
  · exact encode_of_decodeLoad hop hi
  obtain ⟨hop, hi⟩ | ⟨-, h⟩ := ite_eq_iff.mp h
  · exact encode_of_decodeStore hop hi
  obtain ⟨hop, hi⟩ | ⟨-, h⟩ := ite_eq_iff.mp h
  · exact encode_of_decodeOpImm hop hi
  obtain ⟨hop, hi⟩ | ⟨-, h⟩ := ite_eq_iff.mp h
  · exact encode_of_decodeOp hop hi
  obtain ⟨hop, hi⟩ | ⟨-, h⟩ := ite_eq_iff.mp h
  · obtain ⟨hw, ⟨⟩⟩ | ⟨-, ⟨⟩⟩ := ite_eq_iff.mp hi
    exact hw.symm
  cases h

end EncodeOfDecode

/-! ## The opcode table (30_encoding R105) -/

theorem rowOf_mem_opcodeTable (i : Instr) : rowOf i ∈ opcodeTable := by
  cases i <;> dsimp only [rowOf] <;> decide

theorem exists_rowOf_eq : ∀ r ∈ opcodeTable, ∃ i, rowOf i = r := by
  simp only [opcodeTable, List.cons_append, List.nil_append, List.forall_mem_cons, exists_apply_eq_apply, List.not_mem_nil,
    false_imp_iff, implies_true, and_self]

theorem rowOf_matches_encode (i : Instr) : (rowOf i).matches (encode i) = true := by
  cases i with
  | lui | auipc | jal => exact Laws.TableRow.matches_opcode rfl rfl
  | ebreak => exact Laws.TableRow.ebreak
  | slli | srli | srai | add | sub | sll | slt | sltu | xor | srl | sra | or | and | mul | mulh | mulhsu | mulhu | div | divu
  | rem | remu => exact Laws.TableRow.matches_funct7 rfl rfl
  | _ => exact Laws.TableRow.matches_funct3 rfl rfl

theorem OpcodeRow.matches_iff {r : OpcodeRow} {w : Word} : r.matches w = true ↔ w &&& r.mask = r.bits :=
  decide_eq_true_iff

/-- Two words that match a row agree on every field that its mask fixes. -/
theorem field_eq_of_matches {r : OpcodeRow} {w v : Word} (hw : r.matches w = true) (hv : r.matches v = true)
    {start len : Nat} (hm : r.mask.extractLsb' start len = BitVec.allOnes len) :
    w.extractLsb' start len = v.extractLsb' start len := by
  have hmasked : w &&& r.mask = v &&& r.mask :=
    (OpcodeRow.matches_iff.mp hw).trans (OpcodeRow.matches_iff.mp hv).symm
  simpa only [BitVec.extractLsb'_and, hm, BitVec.and_allOnes] using congrArg (BitVec.extractLsb' start len) hmasked

theorem opcodeOf_mask_of_mem_opcodeTable : ∀ r ∈ opcodeTable, opcodeOf r.mask = BitVec.allOnes 7 := by decide

theorem exists_decode_of_matches {i : Instr} {w : Word} (h : (rowOf i).matches w = true) : ∃ j, decode w = .ok j := by
  have hop : opcodeOf w = opcodeOf (encode i) :=
    field_eq_of_matches h (rowOf_matches_encode i) (opcodeOf_mask_of_mem_opcodeTable _ (rowOf_mem_opcodeTable i))
  have h3 (hm : funct3Of (rowOf i).mask = BitVec.allOnes 3) : funct3Of w = funct3Of (encode i) :=
    field_eq_of_matches h (rowOf_matches_encode i) hm
  have h7 (hm : funct7Of (rowOf i).mask = BitVec.allOnes 7) : funct7Of w = funct7Of (encode i) :=
    field_eq_of_matches h (rowOf_matches_encode i) hm
  cases i with
  | lui | auipc | jal => simp [decode, hop, encode]
  | ebreak =>
    have hw : w = encode .ebreak := BitVec.and_allOnes.symm.trans (OpcodeRow.matches_iff.mp h)
    exact ⟨_, hw ▸ decode_encode rfl⟩
  | jalr | beq | bne | blt | bge | bltu | bgeu | lb | lh | lw | lbu | lhu | sb | sh | sw | addi | slti | sltiu | xori | ori
  | andi =>
    have h3 := h3 (by dsimp only [rowOf]; decide)
    simp [decode, decodeBranch, decodeLoad, decodeStore, decodeOpImm, hop, h3, encode]
  | _ =>
    have h3 := h3 (by dsimp only [rowOf]; decide)
    have h7 := h7 (by dsimp only [rowOf]; decide)
    simp [decode, decodeOpImm, decodeOp, hop, h3, h7, encode]

/-- Rows that differ in a bit that both fix have no common word. -/
theorem not_matches_both {r q : OpcodeRow} (h : r.bits &&& q.mask ≠ q.bits &&& r.mask) (w : Word) :
    ¬ (r.matches w = true ∧ q.matches w = true) := by
  rintro ⟨hr, hq⟩
  rw [OpcodeRow.matches_iff] at hr hq
  rw [← hr, ← hq, BitVec.and_assoc, BitVec.and_assoc, BitVec.and_comm r.mask] at h
  exact h rfl

theorem opcodeTable_pairwise : opcodeTable.Pairwise fun r q => r.bits &&& q.mask ≠ q.bits &&& r.mask := by
  decide

end Sys2Proof

namespace Sys2Proof.Machine

/-! ## A live machine steps (60_exceptions R241, R250) -/

/-- A machine that is Ended, Aborted or Quitting stays as it is. -/
theorem step_of_not_canRun {s : State} (hs : s.crashed = false) (hrun : ¬ s.runState.canRun = true) : step s = .next s := by
  rw [step, monitorStep, if_neg (by simp [hs]), if_neg hrun]

/-- The Monitor turns a fault into the crashed mark, so it answers a next state to all but a refusal. -/
theorem State.monitor_next {s : State} {o : Result} (h : ∀ r, o ≠ .refused r) : ∃ t, s.monitor o = .next t := by
  cases o with
  | next u => exact ⟨_, rfl⟩
  | fault f => exact ⟨_, rfl⟩
  | refused r => exact absurd rfl (h r)

/-! ## The statements -/

/-- Settles O13, by cases on the instruction's group (`decode_encode`). -/
theorem decodeOfEncodeIsTheInstruction : Obligations.DecodeOfEncodeIsTheInstruction := fun _ rest hwf =>
  ⟨decode_encode hwf, decodeBytes_bytesOfWord (decode_encode hwf) rest⟩

/-- Settles O14, by the selector tests that the word passes (`encode_of_decode`). -/
theorem encodeOfDecodeIsTheWord : Obligations.EncodeOfDecodeIsTheWord := fun _ _ h =>
  ⟨encode_of_decode h, decode_wellFormed h⟩

/-- Settles O15: a word that decodes is an encoding, which matches its row; a word that matches a row has that row's
selectors; and two rows differ in a bit that both fix. -/
theorem decodeFollowsTheOpcodeTable : Obligations.DecodeFollowsTheOpcodeTable := by
  have hrow (w : Word) (i : Instr) (h : decode w = .ok i) : (rowOf i).matches w = true :=
    encode_of_decode h ▸ rowOf_matches_encode i
  refine ⟨fun w => ⟨?_, ?_⟩, hrow, opcodeTable_pairwise.imp not_matches_both⟩
  · rintro ⟨i, hi⟩
    exact ⟨rowOf i, rowOf_mem_opcodeTable i, hrow w i hi⟩
  · rintro ⟨r, hr, hm⟩
    obtain ⟨i, rfl⟩ := exists_rowOf_eq r hr
    exact exists_decode_of_matches hm

/-- Settles O12, by the five layouts and the ranges of decoded immediates. -/
theorem immediatesHaveTheSpecsBitLayouts : Obligations.ImmediatesHaveTheSpecsBitLayouts := by
  intro w
  have hI := of_decide_eq_true (fitsImm12_immI w)
  have hS := of_decide_eq_true (fitsImm12_immS w)
  obtain ⟨hBlo, hBhi, -⟩ := of_decide_eq_true (fitsImmB_immB w)
  obtain ⟨hJlo, hJhi, -⟩ := of_decide_eq_true (fitsImmJ_immJ w)
  exact ⟨fun _ => getLsbD_immI w, fun _ => getLsbD_immS w, fun _ => getLsbD_immB w, fun _ => getLsbD_immU w,
    fun _ => getLsbD_immJ w, hI, hS, ⟨hBlo, hBhi⟩, hJlo, hJhi⟩

/-- Settles O33: no meaning refuses, and the Monitor answers everything else. -/
theorem liveMachineAlwaysSteps : Obligations.LiveMachineAlwaysSteps := by
  intro s hs
  by_cases hrun : s.runState.canRun = true
  · rw [step_of_canStep ⟨hs, hrun⟩]
    exact State.monitor_next (engineStep_ne_refused s)
  · exact ⟨s, step_of_not_canRun hs hrun⟩

/-- Settles O16: each word is decoded. -/
theorem specWordsDecodeAsTheSpecSays : Obligations.SpecWordsDecodeAsTheSpecSays := by
  unfold Obligations.SpecWordsDecodeAsTheSpecSays
  decide

/-- Settles O17: each word is decoded. -/
theorem specsInvalidWordsAreRejected : Obligations.SpecsInvalidWordsAreRejected := by
  unfold Obligations.SpecsInvalidWordsAreRejected
  decide

end Sys2Proof.Machine
end

section
/-! # Family 40_arith_logic_imm: arithmetic and logic with an immediate

A word's selectors name the instruction (`decodeOpImm_addi` and the others; the two shift selectors are settled whole, with
the words they reject), and an instruction whose meaning is to retire a value does nothing else
(`exists_retired_of_exec`). What is left of each result is that the value retired is the one the spec writes. -/

namespace Sys2Proof

/-! ## OP-IMM, selector by selector (30_encoding R103) -/

section DecodeOpImm
variable {w : Word}

theorem decodeOpImm_addi (h : funct3Of w = 0b000#3) : decodeOpImm w = .ok (.addi (rdOf w) (rs1Of w) (immI w)) := by
  simp [decodeOpImm, h]

theorem decodeOpImm_slti (h : funct3Of w = 0b010#3) : decodeOpImm w = .ok (.slti (rdOf w) (rs1Of w) (immI w)) := by
  simp [decodeOpImm, h]

theorem decodeOpImm_sltiu (h : funct3Of w = 0b011#3) : decodeOpImm w = .ok (.sltiu (rdOf w) (rs1Of w) (immI w)) := by
  simp [decodeOpImm, h]

theorem decodeOpImm_xori (h : funct3Of w = 0b100#3) : decodeOpImm w = .ok (.xori (rdOf w) (rs1Of w) (immI w)) := by
  simp [decodeOpImm, h]

theorem decodeOpImm_ori (h : funct3Of w = 0b110#3) : decodeOpImm w = .ok (.ori (rdOf w) (rs1Of w) (immI w)) := by
  simp [decodeOpImm, h]

theorem decodeOpImm_andi (h : funct3Of w = 0b111#3) : decodeOpImm w = .ok (.andi (rdOf w) (rs1Of w) (immI w)) := by
  simp [decodeOpImm, h]

/-- The left shift answers to one value of inst[31:25], every other is rejected. -/
theorem decodeOpImm_shiftLeft (h : funct3Of w = 0b001#3) :
    decodeOpImm w =
      if funct7Of w = 0b0000000#7 then .ok (.slli (rdOf w) (rs1Of w) (shamtOf w)) else .error .opImmShift := by
  simp [decodeOpImm, h]

/-- The right shifts answer to one value of inst[31:25] each, every other is rejected. -/
theorem decodeOpImm_shiftRight (h : funct3Of w = 0b101#3) :
    decodeOpImm w =
      if funct7Of w = 0b0000000#7 then .ok (.srli (rdOf w) (rs1Of w) (shamtOf w))
      else if funct7Of w = 0b0100000#7 then .ok (.srai (rdOf w) (rs1Of w) (shamtOf w))
      else .error .opImmShift := by
  simp [decodeOpImm, h]

end DecodeOpImm

/-! ## Shifts as arithmetic (40_arith_logic_imm R127 to R129) -/

section Shifts
variable {m : Nat} (v : BitVec m) (n : Nat)

theorem shiftLeft_eq_ofNat_mul : v <<< n = BitVec.ofNat m (v.toNat * 2 ^ n) :=
  congrArg (BitVec.ofNat m) (Nat.shiftLeft_eq v.toNat n)

theorem ushiftRight_eq_ofNat_div : v >>> n = BitVec.ofNat m (v.toNat / 2 ^ n) := by
  rw [← Nat.shiftRight_eq_div_pow, ← BitVec.toNat_ushiftRight, BitVec.ofNat_toNat, BitVec.setWidth_eq]

/-- The quotient of integers rounds to the floor here, as the divisor is positive. -/
theorem sshiftRight_eq_ofInt_div : v.sshiftRight n = BitVec.ofInt m (v.toInt / 2 ^ n) := by
  rw [BitVec.sshiftRight_eq, Int.shiftRight_eq_div_pow, Nat.cast_pow, Nat.cast_ofNat]

end Shifts

end Sys2Proof

namespace Sys2Proof.Machine

/-! ## Comparisons as words (40_arith_logic_imm R122, R123) -/

theorem boolWord_ltSigned (a b : Word) : boolWord (ltSigned a b) = if a.toInt < b.toInt then 1#32 else 0#32 := by
  simp [boolWord, ltSigned]

theorem boolWord_ltUnsigned (a b : Word) : boolWord (ltUnsigned a b) = if a.toNat < b.toNat then 1#32 else 0#32 := by
  simp [boolWord, ltUnsigned]

/-! ## An instruction that retires a value -/

/-- Its whole effect, with the value in the spec's words. -/
theorem exists_retired_of_exec {i : Instr} {s : State} {rd : Reg} {v x : Word} (h : exec i s = .next (s.retire rd v))
    (hv : v = x) : ∃ t, exec i s = .next t ∧ Retired s t rd x (s.pc + 4#32) :=
  ⟨_, h, hv ▸ retired_retire s rd v⟩

/-! ## The statements -/

/-- Settles O40: the sum is the machine's addition, the comparisons are `boolWord_ltSigned` and `boolWord_ltUnsigned`. -/
theorem immediateAddAndCompareResults : Obligations.ImmediateAddAndCompareResults :=
  ⟨fun _ hop h3 => (decode_opImm hop).trans (decodeOpImm_addi h3),
    fun _ hop h3 => (decode_opImm hop).trans (decodeOpImm_slti h3),
    fun _ hop h3 => (decode_opImm hop).trans (decodeOpImm_sltiu h3),
    fun _ _ _ _ => ⟨exists_retired_of_exec rfl (BitVec.add_def _ _), exists_retired_of_exec rfl (boolWord_ltSigned _ _),
      exists_retired_of_exec rfl (boolWord_ltUnsigned _ _)⟩⟩

/-- Settles O41: the machine's bitwise operations, read bit by bit. -/
theorem immediateLogicResults : Obligations.ImmediateLogicResults :=
  ⟨fun _ hop h3 => (decode_opImm hop).trans (decodeOpImm_xori h3),
    fun _ hop h3 => (decode_opImm hop).trans (decodeOpImm_ori h3),
    fun _ hop h3 => (decode_opImm hop).trans (decodeOpImm_andi h3),
    fun rd _ _ s => ⟨⟨_, _, rfl, retired_retire s rd _, fun _ => BitVec.getLsbD_xor⟩,
      ⟨_, _, rfl, retired_retire s rd _, fun _ => BitVec.getLsbD_or⟩,
      ⟨_, _, rfl, retired_retire s rd _, fun _ => BitVec.getLsbD_and⟩⟩⟩

/-- Settles O42: inst[31:25] selects the shift or rejects the word, and each shift is a product or a floor quotient. -/
theorem immediateShiftResults : Obligations.ImmediateShiftResults := by
  refine ⟨fun w hop h3 h7 => ?slli, fun w hop h3 h7 => ?srli, fun w hop h3 h7 => ?srai, fun w hop h3 h7 => ?badLeft,
    fun w hop h3 h7 h7' => ?badRight, fun rd rs1 shamt s => ⟨?_, ?_, ?_⟩⟩
  case slli => rw [decode_opImm hop, decodeOpImm_shiftLeft h3, if_pos h7]
  case srli => rw [decode_opImm hop, decodeOpImm_shiftRight h3, if_pos h7]
  case srai => rw [decode_opImm hop, decodeOpImm_shiftRight h3, h7, if_neg (by decide), if_pos rfl]
  case badLeft => rw [decode_opImm hop, decodeOpImm_shiftLeft h3, if_neg h7]
  case badRight => rw [decode_opImm hop, decodeOpImm_shiftRight h3, if_neg h7, if_neg h7']
  · exact exists_retired_of_exec rfl (shiftLeft_eq_ofNat_mul _ _)
  · exact exists_retired_of_exec rfl (ushiftRight_eq_ofNat_div _ _)
  · exact exists_retired_of_exec rfl (sshiftRight_eq_ofInt_div _ _)

end Sys2Proof.Machine
end

section
/-! # Family 41_arith_logic_reg: arithmetic and logic, register-register

A selector row is read off the encoder (`encodedByFunct7_of_encode`): a word that carries an instruction's opcode, funct3
and funct7 is its encoding, and decoding an encoding gives the instruction back. The results are those of family
40_arith_logic_imm with the second operand from a register; what is new is the difference and the shift amount. -/

namespace Sys2Proof.Machine

/-! ## OP, selector by selector (30_encoding R104) -/

/-- An R-type instruction's selector row. -/
theorem encodedByFunct7_of_encode {op : BitVec 7} {funct3 : BitVec 3} {funct7 : BitVec 7} {mk : Reg → Reg → Reg → Instr}
    (hwf : ∀ rd rs1 rs2, (mk rd rs1 rs2).wellFormed = true)
    (henc : ∀ rd rs1 rs2, encode (mk rd rs1 rs2) = encodeR funct7 funct3 op rd rs1 rs2) :
    EncodedByFunct7 op funct3 funct7 (fun w => mk (rdOf w) (rs1Of w) (rs2Of w)) := by
  intro w hop h3 h7
  have hw : encode (mk (rdOf w) (rs1Of w) (rs2Of w)) = w := (henc _ _ _).trans (encodeR_fields h7 h3 hop)
  have hdec := decode_encode (hwf (rdOf w) (rs1Of w) (rs2Of w))
  rwa [hw] at hdec

/-! ## Operands as arithmetic (41_arith_logic_reg R142, R143) -/

/-- The difference of the signed values, cut to a word, is the machine's. -/
theorem sub_eq_ofInt_toInt_sub (a b : Word) : a - b = BitVec.ofInt 32 (a.toInt - b.toInt) :=
  BitVec.eq_of_toInt_eq (by rw [BitVec.toInt_sub, BitVec.toInt_ofInt])

theorem shiftAmount_eq_mod (v : Word) : shiftAmount v = v.toNat % 32 := by
  rw [shiftAmount, BitVec.extractLsb'_toNat, Nat.shiftRight_zero]

/-! ## The statements -/

/-- Settles O43: sum and comparisons as for the immediate forms (`immediateAddAndCompareResults`), the difference by
`sub_eq_ofInt_toInt_sub`. -/
theorem registerAddAndCompareResults : Obligations.RegisterAddAndCompareResults := by
  refine ⟨?add, ?sub, ?slt, ?sltu, fun rd rs1 rs2 s => ⟨?_, ?_, ?_, ?_⟩⟩
  case add | sub | slt | sltu => exact encodedByFunct7_of_encode (fun _ _ _ => rfl) (fun _ _ _ => rfl)
  · exact exists_retired_of_exec rfl (BitVec.add_def _ _)
  · exact exists_retired_of_exec rfl (sub_eq_ofInt_toInt_sub _ _)
  · exact exists_retired_of_exec rfl (boolWord_ltSigned _ _)
  · exact exists_retired_of_exec rfl (boolWord_ltUnsigned _ _)

/-- Settles O44: the amount is x[rs2] mod 32 (`shiftAmount_eq_mod`), and each shift by it is a product or a floor
quotient. -/
theorem registerShiftResults : Obligations.RegisterShiftResults := by
  refine ⟨?sll, ?srl, ?sra, fun rd rs1 rs2 s => ?results⟩
  case sll | srl | sra => exact encodedByFunct7_of_encode (fun _ _ _ => rfl) (fun _ _ _ => rfl)
  case results =>
    rw [← shiftAmount_eq_mod]
    exact ⟨exists_retired_of_exec rfl (shiftLeft_eq_ofNat_mul _ _),
      exists_retired_of_exec rfl (ushiftRight_eq_ofNat_div _ _),
      exists_retired_of_exec rfl (sshiftRight_eq_ofInt_div _ _)⟩

/-- Settles O45: the machine's bitwise operations, read bit by bit. -/
theorem registerLogicResults : Obligations.RegisterLogicResults := by
  refine ⟨?xor, ?or, ?and, fun rd rs1 rs2 s => ⟨?_, ?_, ?_⟩⟩
  case xor | or | and => exact encodedByFunct7_of_encode (fun _ _ _ => rfl) (fun _ _ _ => rfl)
  · exact ⟨_, _, rfl, retired_retire s rd _, fun _ => BitVec.getLsbD_xor⟩
  · exact ⟨_, _, rfl, retired_retire s rd _, fun _ => BitVec.getLsbD_or⟩
  · exact ⟨_, _, rfl, retired_retire s rd _, fun _ => BitVec.getLsbD_and⟩

end Sys2Proof.Machine
end

section
/-! # Family 42_muldiv: multiplication and division

The multiplies write a word of an exact product (`lowWord_mul`, `highWord_eq_ofInt_div`). A division has three ways out:
its ordinary result, the policy's answer in a corner, or the fault (`divide_of_no_corner`, `divide_of_corner`,
`divide_faults_iff`); which one is taken is a question about the corner alone. The ordinary results are those of the
integers' truncated division (`toInt_quotSigned`, `toInt_remSigned`) and of the machine's unsigned division. -/

namespace Sys2Proof.Machine

/-! ## Words of an exact product (42_muldiv R161 to R164) -/

/-- The low word does not depend on the operands' signs (R161). -/
theorem lowWord_mul (a b : Word) : lowWord (a.toInt * b.toInt) = BitVec.ofNat 32 (a.toNat * b.toNat) := by
  rw [lowWord, BitVec.ofInt_mul, BitVec.ofInt_toInt, BitVec.ofInt_toInt, BitVec.ofNat_mul]
  simp only [BitVec.ofNat_toNat, BitVec.setWidth_eq]

/-- Bits 63..32 of any product are its floor quotient by 2^32, cut to a word. -/
theorem highWord_eq_ofInt_div (p : Int) : highWord p = BitVec.ofInt 32 (p / 2 ^ 32) := by
  apply BitVec.eq_of_toNat_eq
  rw [highWord, BitVec.extractLsb'_toNat, BitVec.toNat_ofInt, BitVec.toNat_ofInt, Nat.shiftRight_eq_div_pow]
  omega

theorem highWord_natCast_mul (m n : Nat) : highWord ((m : Int) * (n : Int)) = BitVec.ofNat 32 (m * n / 2 ^ 32) := by
  rw [highWord_eq_ofInt_div, ← BitVec.ofInt_natCast]
  norm_cast

/-! ## The corners (42_muldiv R165 to R169) -/

theorem signedCorner_ne_none_iff (a b : Word) :
    signedCorner a b ≠ none ↔ b = 0#32 ∨ (a = 0x80000000#32 ∧ b = 0xFFFFFFFF#32) := by
  unfold signedCorner
  split_ifs <;> simp [*]

theorem unsignedCorner_ne_none_iff (b : Word) : unsignedCorner b ≠ none ↔ b = 0#32 := by
  unfold unsignedCorner
  split_ifs <;> simp [*]

section Divide
variable {c : Option DivCorner} {cornerResult : DivCorner → Word} {v : Word} {rd : Reg} {s : State}

/-- Outside the corners the policy has no say. -/
theorem divide_of_no_corner (hc : c = none) : divide c cornerResult v rd s = .next (s.retire rd v) := by
  rw [divide_eq, hc]

theorem divide_of_corner {k : DivCorner} (hp : s.params.divPolicy = .riscv) (hc : c = some k) :
    divide c cornerResult v rd s = .next (s.retire rd (cornerResult k)) := by
  rw [divide_eq, hc, hp]

theorem divide_faults_iff (hp : s.params.divPolicy = .fatal) :
    divide c cornerResult v rd s = .fault .divFault ↔ c ≠ none := by
  rw [divide_eq, hp]
  cases c <;> simp

end Divide

/-! ## The ordinary results as integers (42_muldiv R165 to R168) -/

/-- Outside the overflow pair the quotient fits a word. -/
theorem toInt_quotSigned {a b : Word} (h : ¬ (a = 0x80000000#32 ∧ b = 0xFFFFFFFF#32)) :
    (quotSigned a b).toInt = a.toInt.tdiv b.toInt := by
  rw [quotSigned, BitVec.toInt_ofInt, ← BitVec.toInt_sdiv, BitVec.toInt_sdiv_of_ne_or_ne a b (not_and_or.mp h)]

/-- The remainder fits a word always. -/
theorem toInt_remSigned (a b : Word) : (remSigned a b).toInt = a.toInt.tmod b.toInt := by
  rw [remSigned, mul_comm, ← Int.tmod_def, ← BitVec.toInt_srem, BitVec.ofInt_toInt]

theorem toNat_quotUnsigned (a b : Word) : (quotUnsigned a b).toNat = a.toNat / b.toNat := by
  rw [quotUnsigned, ← BitVec.udiv_def, BitVec.toNat_udiv]

theorem toNat_remUnsigned (a b : Word) : (remUnsigned a b).toNat = a.toNat % b.toNat := by
  rw [remUnsigned, ← BitVec.umod_def, BitVec.toNat_umod]

theorem abs_tmod_lt_abs (m : Int) {n : Int} (hn : n ≠ 0) : |m.tmod n| < |n| := by
  rw [Int.abs_eq_natAbs, Int.abs_eq_natAbs, Int.natAbs_tmod, Int.ofNat_lt]
  exact Nat.mod_lt _ (Int.natAbs_pos.mpr hn)

/-- The remainder of truncated division has the dividend's sign or is zero. -/
theorem tmod_mul_self_nonneg (m n : Int) : 0 ≤ m.tmod n * m := by
  rw [← Int.sign_nonneg_iff, Int.sign_mul, Int.sign_tmod]
  split
  · rw [zero_mul]
  · exact mul_self_nonneg _

/-! ## The statements -/

/-- Settles O46: each multiply retires the low or the high word of its exact product. -/
theorem multiplyResults : Obligations.MultiplyResults := by
  refine ⟨?mul, ?mulh, ?mulhsu, ?mulhu, fun rd rs1 rs2 s => ⟨?_, ?_, ?_, ?_⟩⟩
  case mul | mulh | mulhsu | mulhu => exact encodedByFunct7_of_encode (fun _ _ _ => rfl) (fun _ _ _ => rfl)
  · exact exists_retired_of_exec rfl (lowWord_mul _ _)
  · exact exists_retired_of_exec rfl (highWord_eq_ofInt_div _)
  · exact exists_retired_of_exec rfl (highWord_eq_ofInt_div _)
  · exact exists_retired_of_exec rfl (highWord_natCast_mul _ _)

/-- Settles O47: quotient and remainder are those of the integers' truncated division. -/
theorem signedDivisionResults : Obligations.SignedDivisionResults := by
  intro rd rs1 rs2 s hzero hoverflow
  have hcorner : signedCorner (s.readReg rs1) (s.readReg rs2) = none :=
    not_ne_iff.mp ((signedCorner_ne_none_iff _ _).not.mpr (not_or.mpr ⟨hzero, hoverflow⟩))
  have hdivisor : (s.readReg rs2).toInt ≠ 0 := fun h => hzero (BitVec.eq_of_toInt_eq h)
  refine ⟨_, _, _, _, divide_of_no_corner hcorner, retired_retire s rd _, divide_of_no_corner hcorner,
    retired_retire s rd _, ?_, ?_, ?_⟩
  · rw [toInt_quotSigned hoverflow, toInt_remSigned, Int.tdiv_mul_add_tmod]
  · rw [toInt_remSigned]
    exact abs_tmod_lt_abs _ hdivisor
  · rw [toInt_remSigned]
    exact tmod_mul_self_nonneg _ _

/-- Settles O48: quotient and remainder are those of the natural numbers. -/
theorem unsignedDivisionResults : Obligations.UnsignedDivisionResults := by
  intro rd rs1 rs2 s hzero
  have hcorner : unsignedCorner (s.readReg rs2) = none := if_neg hzero
  refine ⟨_, _, _, _, divide_of_no_corner hcorner, retired_retire s rd _, divide_of_no_corner hcorner,
    retired_retire s rd _, ?_, ?_⟩
  · rw [toNat_quotUnsigned, toNat_remUnsigned, Nat.div_add_mod']
  · rw [toNat_remUnsigned]
    exact Nat.mod_lt _ (Nat.pos_of_ne_zero fun h => hzero (BitVec.eq_of_toNat_eq h))

/-- Settles O49: each corner retires its row of the table; the overflow pair is no corner of the unsigned divisions. -/
theorem divisionCornersUnderRiscvPolicy : Obligations.DivisionCornersUnderRiscvPolicy := by
  refine fun rd rs1 rs2 s hp => ⟨fun hb => ?byZero, fun ha hb => ?overflow⟩
  case byZero =>
    have hsigned : signedCorner (s.readReg rs1) (s.readReg rs2) = some .byZero := if_pos hb
    have hunsigned : unsignedCorner (s.readReg rs2) = some .byZero := if_pos hb
    exact ⟨exists_retired_of_exec (divide_of_corner hp hsigned) rfl,
      exists_retired_of_exec (divide_of_corner hp hunsigned) rfl,
      exists_retired_of_exec (divide_of_corner hp hsigned) rfl,
      exists_retired_of_exec (divide_of_corner hp hunsigned) rfl⟩
  case overflow =>
    have hsigned : signedCorner (s.readReg rs1) (s.readReg rs2) = some .overflow := by rw [ha, hb]; decide
    have hunsigned : unsignedCorner (s.readReg rs2) = none := by rw [hb]; decide
    have hquot : quotUnsigned (s.readReg rs1) (s.readReg rs2) = 0#32 := by rw [ha, hb]; decide
    have hrem : remUnsigned (s.readReg rs1) (s.readReg rs2) = 0x80000000#32 := by rw [ha, hb]; decide
    exact ⟨exists_retired_of_exec (divide_of_corner hp hsigned) ha,
      exists_retired_of_exec (divide_of_no_corner hunsigned) hquot,
      exists_retired_of_exec (divide_of_corner hp hsigned) rfl,
      exists_retired_of_exec (divide_of_no_corner hunsigned) hrem⟩

/-- Settles O50: under this policy a division faults exactly in its corners, and those are the spec's. -/
theorem divisionCornersUnderFatalPolicy : Obligations.DivisionCornersUnderFatalPolicy :=
  fun _ rs1 rs2 s hp =>
    have hsigned := signedCorner_ne_none_iff (s.readReg rs1) (s.readReg rs2)
    have hunsigned := unsignedCorner_ne_none_iff (s.readReg rs2)
    ⟨(divide_faults_iff hp).trans hsigned, (divide_faults_iff hp).trans hsigned,
      (divide_faults_iff hp).trans hunsigned, (divide_faults_iff hp).trans hunsigned⟩

end Sys2Proof.Machine
end

section
/-! # Family 43_load_store: loads and stores

A load or a store has two ways out, by the range of its access alone (`load_of_inRange`, `load_of_not_inRange`,
`exists_stored_of_inRange`, `exec_fault_of_storesTo`). In range, what is left of a load is that the value of its bytes is the
bytes put together, and of a store that the bytes of a word are its slices. What an instruction does to memory
(`exec_mem_cases`) is nothing or one write at the address it stores to. -/

namespace Sys2Proof.Machine

/-! ## LOAD and STORE, selector by selector (30_encoding R102) -/

/-- An I-type instruction's selector row. -/
theorem encodedByFunct3_of_encodeI {op : BitVec 7} {funct3 : BitVec 3} {mk : Reg → Reg → Word → Instr}
    (hwf : ∀ rd rs1 imm, (mk rd rs1 imm).wellFormed = fitsImm12 imm)
    (henc : ∀ rd rs1 imm, encode (mk rd rs1 imm) = encodeI funct3 op rd rs1 imm) :
    EncodedByFunct3 op funct3 (fun w => mk (rdOf w) (rs1Of w) (immI w)) := by
  intro w hop h3
  have hw : encode (mk (rdOf w) (rs1Of w) (immI w)) = w := (henc _ _ _).trans (encodeI_fields h3 hop)
  have hdec := decode_encode ((hwf (rdOf w) (rs1Of w) (immI w)).trans (fitsImm12_immI w))
  rwa [hw] at hdec

/-- An S-type instruction's selector row. -/
theorem encodedByFunct3_of_encodeS {funct3 : BitVec 3} {mk : Reg → Reg → Word → Instr}
    (hwf : ∀ rs1 rs2 imm, (mk rs1 rs2 imm).wellFormed = fitsImm12 imm)
    (henc : ∀ rs1 rs2 imm, encode (mk rs1 rs2 imm) = encodeS funct3 rs1 rs2 imm) :
    EncodedByFunct3 0b0100011#7 funct3 (fun w => mk (rs1Of w) (rs2Of w) (immS w)) := by
  intro w hop h3
  have hw : encode (mk (rs1Of w) (rs2Of w) (immS w)) = w := (henc _ _ _).trans (encodeS_fields h3 hop)
  have hdec := decode_encode ((hwf (rs1Of w) (rs2Of w) (immS w)).trans (fitsImm12_immS w))
  rwa [hw] at hdec

/-! ## The bytes of a value and the value of bytes (20_memory R54, R55)

`ofNat_leValue` is the four-byte case. -/

theorem ofNat_leValue_byte (b : Byte) : BitVec.ofNat 8 (leValue [b]) = b :=
  BitVec.eq_of_toNat_eq (by rw [BitVec.toNat_ofNat]; exact Nat.mod_eq_of_lt b.isLt)

theorem ofNat_leValue_half (b0 b1 : Byte) : BitVec.ofNat 16 (leValue [b0, b1]) = b1 ++ b0 := by
  apply BitVec.eq_of_toNat_eq
  have h0 := b0.isLt
  have h1 := b1.isLt
  rw [BitVec.toNat_append, ← Nat.shiftLeft_add_eq_or_of_lt h0, Nat.shiftLeft_eq, BitVec.toNat_ofNat]
  simp only [leValue]
  omega

/-- Byte `i` of a word is the slice of its bits from `8 * i`. -/
theorem ofNat_toNat_div_eq_extractLsb' (v : Word) (i : Nat) :
    BitVec.ofNat 8 (v.toNat / 256 ^ i) = v.extractLsb' (8 * i) 8 := by
  rw [← two_pow_eight_mul, ← Nat.shiftRight_eq_div_pow]
  rfl

/-! ## What a load and a store answer (43_load_store R180) -/

section Access
variable {n : Nat} {ext : Nat → Word} {rd rs1 : Reg} (rs2 : Reg) {imm : Word} {s : State}

theorem load_of_inRange (hn : validLength n) (hr : InRange s.params (s.effAddr rs1 imm).toNat n) :
    load n ext rd rs1 imm s = .next (s.retire rd (ext (leValue (s.mem.bytes (s.effAddr rs1 imm).toNat n)))) := by
  rw [load_eq _ _ _ _ _ _ hn, if_pos hr]

theorem load_of_not_inRange (hn : validLength n) (hr : ¬ InRange s.params (s.effAddr rs1 imm).toNat n) :
    load n ext rd rs1 imm s = .fault (.memFault (s.effAddr rs1 imm) n) := by
  rw [load_eq _ _ _ _ _ _ hn, if_neg hr]

theorem store_of_not_inRange (hn : validLength n) (hr : ¬ InRange s.params (s.effAddr rs1 imm).toNat n) :
    store n rs1 rs2 imm s = .fault (.memFault (s.effAddr rs1 imm) n) := by
  rw [store_eq _ _ _ _ _ hn, if_neg hr]

/-- A write of a word's low bytes, and the pc moved on, is all that `Stored` says. -/
theorem stored_of_memWrite (hs : s.mem.wf = true) {a v : Word} {u : State} (h : s.memWrite a n v.toNat = .ok u) :
    Stored s u.advance a n v := by
  obtain ⟨hregs, hpc, hmon⟩ := State.memWrite_frame h
  refine ⟨fun i hi => ?bytes, fun b hb => State.memWrite_read_outside hs h hb, hregs, congrArg (· + 4#32) hpc, hmon⟩
  case bytes =>
    rw [State.advance_mem, State.memWrite_mem h, Memory.read_writeBytes_leBytes hs a.toNat v.toNat hi,
      ofNat_toNat_div_eq_extractLsb']

theorem exists_stored_of_inRange (hs : s.mem.wf = true) (hn : validLength n)
    (hr : InRange s.params (s.effAddr rs1 imm).toNat n) :
    ∃ t, store n rs1 rs2 imm s = .next t ∧ Stored s t (s.effAddr rs1 imm) n (s.readReg rs2) := by
  have hw := State.memWrite_of_inRange (v := (s.readReg rs2).toNat) hn hr
  exact ⟨_, by rw [store, hw], stored_of_memWrite hs hw⟩

end Access

/-! ## Every instruction, by where it stores -/

/-- What an instruction does to memory: nothing, or one write at the address it stores to. -/
theorem exec_mem_cases {i : Instr} {s t : State} (h : exec i s = .next t) :
    (storesTo s i = none ∧ t.mem = s.mem) ∨
      ∃ a n v u, storesTo s i = some (a, n) ∧ s.memWrite a n v = .ok u ∧ t.mem = u.mem := by
  obtain ⟨rd, v, p, -, hst, -, rfl⟩ | ⟨p, -, hst, -, rfl⟩ | ⟨a, n, v, u, -, hst, hu, rfl⟩ | ⟨rfl, rfl⟩ := exec_cases h
  · exact .inl ⟨hst, State.commit_mem s rd v p⟩
  · exact .inl ⟨hst, State.setPc_mem s p⟩
  · exact .inr ⟨a, n, v, u, hst, hu, State.advance_mem u⟩
  · exact .inl ⟨rfl, State.takeTrap_mem s .ebreak⟩

/-- A store out of range faults with the address and the length it stores to. -/
theorem exec_fault_of_storesTo {i : Instr} {s : State} {a : Word} {n : Nat} (h : storesTo s i = some (a, n))
    (hr : ¬ InRange s.params a.toNat n) : exec i s = .fault (.memFault a n) := by
  cases i with
  | sb | sh | sw => cases h; exact store_of_not_inRange _ (by decide) hr
  | _ => cases h

/-- An instruction's fault crashes the machine as it stands (60_exceptions R246). -/
theorem step_of_exec_fault {s : State} {w : Word} {i : Instr} {f : Fault} (hs : s.canStep) (hf : s.fetch = .ok w)
    (hd : decode w = .ok i) (h : exec i s = .fault f) : step s = .next { s with crashed := true } := by
  rw [step_of_canStep hs, engineStep_of_decode hf hd, h]
  rfl

/-! ## The statements -/

/-- Settles O30: memory stays, or the one write leaves every byte outside its own. -/
theorem onlyStoresChangeMemory : Obligations.OnlyStoresChangeMemory := by
  intro i s t hs h
  obtain ⟨hnone, hmem⟩ | ⟨a, n, v, u, hsome, hu, hmem⟩ := exec_mem_cases h
  · refine ⟨fun _ b => by rw [hmem], fun a n hsome => ?_⟩
    cases hnone.symm.trans hsome
  · refine ⟨fun hnone => ?_, fun a' n' hsome' b hb => ?_⟩
    · cases hnone.symm.trans hsome
    · cases hsome.symm.trans hsome'
      rw [hmem, State.memWrite_read_outside hs hu hb]

/-- Settles O37: in range a load retires the bytes at its address put together, otherwise it faults. -/
theorem loadResults : Obligations.LoadResults := by
  refine ⟨?lb, ?lh, ?lw, ?lbu, ?lhu, fun rd rs1 imm ea s hea => ?results⟩
  case lb | lh | lw | lbu | lhu => exact encodedByFunct3_of_encodeI (fun _ _ _ => rfl) (fun _ _ _ => rfl)
  case results =>
    obtain rfl : ea = s.effAddr rs1 imm := hea
    refine ⟨fun hr => ⟨?_, ?_⟩, fun hr => ⟨?_, ?_⟩, fun hr => ?_, fun hr => ⟨?_, ?_⟩, fun hr => ⟨?_, ?_⟩, fun hr => ?_⟩
    · exact exists_retired_of_exec (load_of_inRange (by decide) hr) (congrArg (BitVec.signExtend 32) (ofNat_leValue_byte _))
    · exact exists_retired_of_exec (load_of_inRange (by decide) hr) (congrArg (BitVec.zeroExtend 32) (ofNat_leValue_byte _))
    · exact exists_retired_of_exec (load_of_inRange (by decide) hr) (congrArg (BitVec.signExtend 32) (ofNat_leValue_half _ _))
    · exact exists_retired_of_exec (load_of_inRange (by decide) hr) (congrArg (BitVec.zeroExtend 32) (ofNat_leValue_half _ _))
    · exact exists_retired_of_exec (load_of_inRange (by decide) hr) (ofNat_leValue _ _ _ _)
    all_goals exact load_of_not_inRange (by decide) hr

/-- Settles O38: a fault of the decoded instruction crashes the step, and an access out of range is such a fault. -/
theorem accessOutsideMemoryCrashesTheStep : Obligations.AccessOutsideMemoryCrashesTheStep := by
  intro s w i hs hf hd
  have crash {f : Fault} (h : exec i s = .fault f) : step s = .next { s with crashed := true } :=
    step_of_exec_fault hs hf hd h
  refine ⟨fun _ => crash, fun rd rs1 imm hload => ?_, fun a n hst hr => crash (exec_fault_of_storesTo hst hr)⟩
  obtain ⟨rfl | rfl, hr⟩ | ⟨rfl | rfl, hr⟩ | ⟨rfl, hr⟩ := hload
  all_goals exact crash (load_of_not_inRange (by decide) hr)

/-- Settles O39: in range a store is one write of the word's low bytes, otherwise it faults. -/
theorem storeResults : Obligations.StoreResults := by
  refine ⟨?sb, ?sh, ?sw, fun rs1 rs2 imm ea s hs hea => ?results⟩
  case sb | sh | sw => exact encodedByFunct3_of_encodeS (fun _ _ _ => rfl) (fun _ _ _ => rfl)
  case results =>
    obtain rfl : ea = s.effAddr rs1 imm := hea
    exact ⟨rfl, rfl, rfl, exists_stored_of_inRange rs2 hs (by decide), exists_stored_of_inRange rs2 hs (by decide),
      exists_stored_of_inRange rs2 hs (by decide), exec_fault_of_storesTo rfl, exec_fault_of_storesTo rfl,
      exec_fault_of_storesTo rfl⟩

end Sys2Proof.Machine
end

section
/-! # Family 44_control_flow: jumps and branches

The jumps are commits to the link and the target; what is left is the target of `jalr` as arithmetic
(`State.jalrTarget_eq_ofNat`). A branch whose condition decides `P` jumps by `P` (`exists_jumped_of_branchIf`); the
three conditions are read as comparisons once, and the complements follow from them. -/

namespace Sys2Proof.Machine

/-! ## BRANCH, selector by selector (30_encoding R102) -/

/-- A B-type instruction's selector row. -/
theorem encodedByFunct3_of_encodeB {funct3 : BitVec 3} {mk : Reg → Reg → Word → Instr}
    (hwf : ∀ rs1 rs2 imm, (mk rs1 rs2 imm).wellFormed = fitsImmB imm)
    (henc : ∀ rs1 rs2 imm, encode (mk rs1 rs2 imm) = encodeB funct3 rs1 rs2 imm) :
    EncodedByFunct3 0b1100011#7 funct3 (fun w => mk (rs1Of w) (rs2Of w) (immB w)) := by
  intro w hop h3
  have hw : encode (mk (rs1Of w) (rs2Of w) (immB w)) = w := (henc _ _ _).trans (encodeB_fields h3 hop)
  have hdec := decode_encode ((hwf (rs1Of w) (rs2Of w) (immB w)).trans (fitsImmB_immB w))
  rwa [hw] at hdec

/-! ## The target of `jalr` (44_control_flow R202) -/

/-- The mask clears bit 0 alone: the target is even, and its other bits are those of the wrapped sum. -/
theorem State.jalrTarget_eq_ofNat (s : State) (rs1 : Reg) (imm : Word) :
    s.jalrTarget rs1 imm = BitVec.ofNat 32 (2 * (((s.readReg rs1).toNat + imm.toNat) % 2 ^ 32 / 2)) := by
  have heven := s.jalrTarget_even rs1 imm
  have hhalf : (s.jalrTarget rs1 imm).toNat / 2 = ((s.readReg rs1).toNat + imm.toNat) % 2 ^ 32 / 2 := by
    rw [State.jalrTarget, BitVec.toNat_and, Nat.and_div_two, BitVec.toNat_add]
    exact (Nat.and_two_pow_sub_one_eq_mod _ 31).trans (Nat.mod_eq_of_lt (by omega))
  rw [← hhalf, Nat.mul_div_cancel' (Nat.dvd_of_mod_eq_zero heven), BitVec.ofNat_toNat, BitVec.setWidth_eq]

/-! ## The conditions of the branches (44_control_flow R203 to R208) -/

theorem eqWord_iff (a b : Word) : eqWord a b = true ↔ a.toNat = b.toNat :=
  decide_eq_true_iff.trans BitVec.toNat_inj.symm

theorem ltSigned_iff (a b : Word) : ltSigned a b = true ↔ a.toInt < b.toInt := decide_eq_true_iff

theorem ltUnsigned_iff (a b : Word) : ltUnsigned a b = true ↔ a.toNat < b.toNat := decide_eq_true_iff

/-- A branch on the complement of a condition decides the opposite. -/
theorem not_eq_true_iff_of_iff {c : Bool} {P : Prop} (h : c = true ↔ P) : (!c) = true ↔ ¬ P :=
  Bool.not_iff_not.trans (not_congr h)

/-- The whole effect of a branch, with its condition in the spec's words. -/
theorem exists_jumped_of_branchIf {i : Instr} {s : State} {c : Bool} {P : Prop} [Decidable P] {imm : Word}
    (h : exec i s = branchIf c imm s) (hc : c = true ↔ P) :
    ∃ t, exec i s = .next t ∧ Jumped s t (if P then s.pc + imm else s.pc + 4#32) :=
  ⟨_, h.trans (branchIf_eq c imm s), if_congr hc rfl rfl ▸ jumped_setPc s _⟩

/-! ## The statements -/

/-- Settles O35: both jumps commit the link and their target, `jalr`'s by `State.jalrTarget_eq_ofNat`. -/
theorem jumpAndLinkResults : Obligations.JumpAndLinkResults := by
  refine fun rd rs1 imm s => ⟨⟨_, rfl, ?jal⟩, ⟨_, rfl, ?jalr⟩⟩
  case jal =>
    rw [← BitVec.add_def]
    exact retired_commit s rd _ _
  case jalr =>
    rw [← State.jalrTarget_eq_ofNat]
    exact retired_commit s rd _ _

/-- Settles O36: each branch decides its comparison, `bge` and `bgeu` as the complements of `blt` and `bltu`. -/
theorem branchResults : Obligations.BranchResults := by
  refine ⟨?beq, ?bne, ?blt, ?bge, ?bltu, ?bgeu, fun rs1 rs2 imm s => ?results⟩
  case beq | bne | blt | bge | bltu | bgeu => exact encodedByFunct3_of_encodeB (fun _ _ _ => rfl) (fun _ _ _ => rfl)
  case results =>
    have heq := eqWord_iff (s.readReg rs1) (s.readReg rs2)
    have hlt := ltSigned_iff (s.readReg rs1) (s.readReg rs2)
    have hltu := ltUnsigned_iff (s.readReg rs1) (s.readReg rs2)
    exact ⟨exists_jumped_of_branchIf rfl heq, exists_jumped_of_branchIf rfl (not_eq_true_iff_of_iff heq),
      exists_jumped_of_branchIf rfl hlt, exists_jumped_of_branchIf rfl ((not_eq_true_iff_of_iff hlt).trans not_lt),
      exists_jumped_of_branchIf rfl hltu, exists_jumped_of_branchIf rfl ((not_eq_true_iff_of_iff hltu).trans not_lt)⟩

end Sys2Proof.Machine
end

section
/-! # Family 45_lui_auipc: the upper immediates

The opcode alone selects them, so `decode_lui` and `decode_auipc` are their encodings; both retire one value. -/

namespace Sys2Proof.Machine

/-- The value of `auipc` is the pc and the immediate added as numbers, modulo 2^32 (45_lui_auipc R221). -/
theorem State.pcPlus_eq_ofNat (s : State) (imm : Word) : s.pcPlus imm = BitVec.ofNat 32 (s.pc.toNat + imm.toNat) :=
  BitVec.add_def s.pc imm

/-- Settles O34: each opcode decodes to its instruction, which retires `imm` or, by `State.pcPlus_eq_ofNat`, the sum. -/
theorem upperImmediateResults : Obligations.UpperImmediateResults := by
  refine ⟨fun _ => decode_lui, fun _ => decode_auipc, fun rd imm s => ⟨?lui, ?auipc⟩⟩
  case lui => exact exists_retired_of_exec rfl rfl
  case auipc => exact exists_retired_of_exec rfl (s.pcPlus_eq_ofNat imm)

end Sys2Proof.Machine
end

section
/-! # Family 46_system: ebreak and the other halting word

A step that can run takes one of three ways: the fetched word is ebreak (`step_of_fetch_ebreak`), it is no instruction
(`step_of_decode_error`), or neither, and then the run state stays (`runState_of_step`). The first two ways leave
Running, so they end the batch of `execute` (`execute_succ_of_halt`). -/

namespace Sys2Proof.Machine

/-! ## The one word that decodes to ebreak (30_encoding R106, 46_system R230, R231) -/

theorem decode_eq_ebreak_iff (w : Word) : decode w = .ok .ebreak ↔ w = 0x00100073#32 := by
  constructor
  · exact fun h => (encode_of_decode h).symm
  · rintro rfl
    exact decode_system rfl

/-! ## The ways of a step (60_exceptions R240, R244, R249) -/

section Step

variable {s t : State}

theorem step_of_fetch_ebreak (hs : s.canStep) (hf : s.fetch = .ok 0x00100073#32) :
    step s = .next (s.takeTrap .ebreak).countStep := by
  rw [step_of_canStep hs, engineStep_of_decode hf ((decode_eq_ebreak_iff _).2 rfl)]
  rfl

theorem step_of_decode_error {w : Word} {e : Invalid} (hs : s.canStep) (hf : s.fetch = .ok w) (hd : decode w = .error e) :
    step s = .next (s.takeTrap (.invalidInstruction w)).countStep := by
  simp only [step_of_canStep hs, engineStep, hf, hd, State.monitor]

theorem exec_runState {i : Instr} (hi : i ≠ .ebreak) (h : exec i s = .next t) : t.runState = s.runState := by
  obtain ⟨rd, v, p, -, -, -, rfl⟩ | ⟨p, -, -, -, rfl⟩ | ⟨a, n, v, u, -, -, hu, rfl⟩ | ⟨rfl, -⟩ := exec_cases h
  · exact State.commit_runState s rd v p
  · exact State.setPc_runState s p
  · obtain ⟨-, -, rfl⟩ := State.memWrite_ok hu
    rfl
  · exact absurd rfl hi

/-- A fault, and every instruction but ebreak, leaves the run state (60_exceptions R246, R250). -/
theorem runState_of_step (h : step s = .next t) (heb : s.fetch ≠ .ok 0x00100073#32)
    (hvalid : ¬ ∃ w e, s.fetch = .ok w ∧ decode w = .error e) : t.runState = s.runState := by
  obtain ⟨-, ⟨-, rfl⟩ | ⟨-, ⟨f, -, rfl⟩ | ⟨u, hu, rfl⟩⟩⟩ := step_cases h
  · rfl
  · exact State.takeTrap_fatal_runState s f
  · obtain ⟨w, hf, ⟨e, he, -⟩ | ⟨i, hi, hex⟩⟩ := engineStep_cases hu
    · exact absurd ⟨w, e, hf, he⟩ hvalid
    · have hne : i ≠ .ebreak := by
        rintro rfl
        exact heb ((decode_eq_ebreak_iff w).1 hi ▸ hf)
      exact (State.countStep_runState u).trans (exec_runState hne hex)

/-- A machine that can step has not halted. -/
theorem State.canStep.not_halted (hs : s.canStep) : s.runState ≠ .ended ∧ s.runState ≠ .aborted := by
  obtain ⟨-, hrun⟩ := hs
  constructor <;> intro h <;> simp [h, RunState.canRun] at hrun

/-- The batch of `execute` ends with a step that leaves Running (60_exceptions R251). -/
theorem execute_succ_of_halt (hs : s.canStep) (hst : step { s with runState := .running } = .next t)
    (ht : t.runState ≠ .running) (n : Nat) : execute (n + 1) s = .next t := by
  have hover : ¬ (t.runState = .running ∧ t.crashed = false) := fun h => ht h.1
  have hbatch : batch (n + 1) { s with runState := .running } = .next t := by
    rw [batch, if_pos ⟨rfl, hs.1⟩, hst]
    exact batch_of_not_running n t hover
  rw [execute_of_canStep hs hbatch, State.endBatch, if_neg hover]

end Step

/-! ## The statements -/

/-- Settles O21: the ebreak step leaves Running, so it ends the batch. -/
theorem ebreakHaltsByTheValueOfA0 : Obligations.EbreakHaltsByTheValueOfA0 := by
  refine fun s => ⟨rfl, fun hs hf n => ?_⟩
  have hst := step_of_fetch_ebreak (s := { s with runState := .running }) ⟨hs.1, rfl⟩ hf
  refine execute_succ_of_halt hs hst ?_ n
  rw [State.countStep_runState, State.takeTrap_ebreak_runState]
  split <;> decide

/-- Settles O28: the run state of the next state, in each of the three ways of a step. -/
theorem onlyTrapsChangeTheRunState : Obligations.OnlyTrapsChangeTheRunState := by
  intro s t hs h
  by_cases heb : s.fetch = .ok 0x00100073#32
  · cases (step_of_fetch_ebreak hs heb).symm.trans h
    have hd := (decode_eq_ebreak_iff _).2 rfl
    by_cases ha0 : s.readReg 10#5 = 0#32 <;> simp [heb, ha0, hd]
  by_cases hinv : ∃ w e, s.fetch = .ok w ∧ decode w = .error e
  · obtain ⟨w, e, hf, hd⟩ := hinv
    cases (step_of_decode_error hs hf hd).symm.trans h
    have hw : w ≠ 0x00100073#32 := by simpa [hf] using heb
    simp [hf, hd, hw]
  · obtain ⟨hended, haborted⟩ := hs.not_halted
    rw [runState_of_step h heb hinv]
    exact ⟨iff_of_false hended fun hc => heb hc.1, iff_of_false haborted (not_or.2 ⟨fun hc => heb hc.1, hinv⟩), .inl rfl⟩

end Sys2Proof.Machine
end


section
/-! # Family 60_exceptions: steps, batches and the host

The run state steers no step: with another label in place of Running or Stopped the same step is taken (`step_runAs`). So
`execute`, which relabels the machine, runs its batch and labels it back (`execute_eq_batch`), can be told from the steps of
the machine as it was given, and batches compose (`execute_add`). The host's debugger stands on that: its `continue`
without watchpoints in use is a batch (`continueFor_of_unused`), and no command but `watch` and `delete` touches the slots
of the pool (`runCommand_slots_perm`). -/

namespace Sys2Proof.Machine

/-! ## The bytes at the pc, decoded (30_encoding R80) -/

theorem decodeBytes_eq_ok_iff {b0 b1 b2 b3 : Byte} {i : Instr} :
    decodeBytes [b0, b1, b2, b3] = .ok (i, []) ↔ decode (wordOfBytes b0 b1 b2 b3) = .ok i := by
  rw [decodeBytes]
  cases decode (wordOfBytes b0 b1 b2 b3) <;> simp

theorem decodeBytes_eq_error_iff {b0 b1 b2 b3 : Byte} {e : Invalid} :
    decodeBytes [b0, b1, b2, b3] = .error e ↔ decode (wordOfBytes b0 b1 b2 b3) = .error e := by
  rw [decodeBytes]
  cases decode (wordOfBytes b0 b1 b2 b3) <;> simp

theorem State.fetch_of_inRange {s : State} (hr : InRange s.params s.pc.toNat 4) :
    s.fetch = .ok (wordOfBytes (s.mem.read s.pc.toNat) (s.mem.read (s.pc.toNat + 1)) (s.mem.read (s.pc.toNat + 2))
      (s.mem.read (s.pc.toNat + 3))) := by
  rw [State.fetch_bytes, if_pos hr]

/-! ## The outcomes of a step that can run (60_exceptions R243 to R246, R260) -/

theorem exec_icount_crashed {i : Instr} {s t : State} (h : exec i s = .next t) :
    t.icount = s.icount ∧ t.crashed = s.crashed := by
  obtain ⟨rd, v, p, -, -, -, rfl⟩ | ⟨p, -, -, -, rfl⟩ | ⟨a, n, v, u, -, -, hu, rfl⟩ | ⟨-, rfl⟩ := exec_cases h
  · exact ⟨State.commit_icount s rd v p, State.commit_crashed s rd v p⟩
  · exact ⟨rfl, rfl⟩
  · obtain ⟨-, -, rfl⟩ := State.memWrite_ok hu
    exact ⟨rfl, rfl⟩
  · exact ⟨rfl, rfl⟩

theorem engineStep_icount_crashed {s t : State} (h : engineStep s = .next t) :
    t.icount = s.icount ∧ t.crashed = s.crashed := by
  obtain ⟨w, -, ⟨e, -, rfl⟩ | ⟨i, -, hex⟩⟩ := engineStep_cases h
  · exact ⟨rfl, rfl⟩
  · exact exec_icount_crashed hex

/-- A step that can run crashes the machine as it stands, or counts once more and does not crash. -/
theorem State.canStep.step_cases {s t : State} (hs : s.canStep) (h : step s = .next t) :
    t = { s with crashed := true } ∨ (t.crashed = false ∧ t.icount = s.icount + 1) := by
  obtain ⟨hlive, ⟨hrun, -⟩ | ⟨-, ⟨f, -, rfl⟩ | ⟨u, hu, rfl⟩⟩⟩ := Machine.step_cases h
  · exact absurd (hrun.symm.trans hs.2) (by decide)
  · exact .inl rfl
  · obtain ⟨hcount, hcrashed⟩ := engineStep_icount_crashed hu
    exact .inr ⟨hcrashed.trans hlive, congrArg (· + 1) hcount⟩

/-- A step that crashes changes the mark alone. -/
theorem State.canStep.eq_of_crashed {s t : State} (hs : s.canStep) (h : step s = .next t) (hc : t.crashed = true) :
    t = { s with crashed := true } :=
  (hs.step_cases h).resolve_right fun hr => absurd (hr.1.symm.trans hc) (by decide)

/-- A step that changes the run state took the trap of ebreak or of an invalid word. -/
theorem trap_of_runState_ne {s t : State} (hs : s.canStep) (h : step s = .next t) (hne : t.runState ≠ s.runState) :
    ∃ e, t = (s.takeTrap e).countStep := by
  by_cases heb : s.fetch = .ok 0x00100073#32
  · cases (step_of_fetch_ebreak hs heb).symm.trans h
    exact ⟨_, rfl⟩
  by_cases hinv : ∃ w e, s.fetch = .ok w ∧ decode w = .error e
  · obtain ⟨w, e, hf, hd⟩ := hinv
    cases (step_of_decode_error hs hf hd).symm.trans h
    exact ⟨_, rfl⟩
  · exact absurd (runState_of_step h heb hinv) hne

/-- What a step makes of the run state: nothing, or a halt. -/
theorem runState_cases_of_step {s t : State} (hs : s.canStep) (h : step s = .next t) :
    t.runState = s.runState ∨ t.runState = .ended ∨ t.runState = .aborted := by
  obtain ⟨-, -, hcases⟩ := onlyTrapsChangeTheRunState s t hs h
  exact hcases

/-! ## Run states -/

theorem RunState.not_canRun_of_ne {r : RunState} (hrunning : r ≠ .running) (hstopped : r ≠ .stopped) :
    r.canRun = false := by
  cases r with
  | running => exact absurd rfl hrunning
  | stopped => exact absurd rfl hstopped
  | ended | aborted | quitting => rfl

/-- A machine that lives and cannot step has halted. -/
theorem canStep_or_halted {s : State} (hc : s.crashed = false) : s.canStep ∨ s.runState.canRun = false := by
  cases h : s.runState.canRun
  · exact .inr rfl
  · exact .inl ⟨hc, h⟩

theorem State.canStep.eq_stopped {s : State} (hs : s.canStep) (h : s.runState ≠ .running) : s.runState = .stopped := by
  by_contra hne
  exact absurd (hs.2.symm.trans (RunState.not_canRun_of_ne h hne)) (by decide)

/-- No step enters Running or Stopped (60_exceptions R250). -/
theorem runState_ne_of_step {s t : State} {r : RunState} (hr : r.canRun = true) (hs : s.canStep) (hne : s.runState ≠ r)
    (h : step s = .next t) : t.runState ≠ r := by
  rintro rfl
  obtain hsame | hended | haborted := runState_cases_of_step hs h
  · exact hne hsame.symm
  · rw [hended] at hr; cases hr
  · rw [haborted] at hr; cases hr

/-! ## The run state steers no step

`execute` runs a Stopped machine as Running and puts Stopped back. A step of the machine with the other label is the same
step (`step_runAs`), so a batch can be told from the steps of the machine as it was given. -/

/-- The same machine with the run state `r` in place of Running or Stopped. -/
def State.runAs (s : State) (r : RunState) : State := { s with runState := if s.runState.canRun then r else s.runState }

section RunAs

variable {s t : State} {r : RunState}

theorem State.runAs_of_canRun (h : s.runState.canRun = true) : s.runAs r = { s with runState := r } := by
  rw [State.runAs, if_pos h]

theorem State.runAs_of_not_canRun (h : s.runState.canRun = false) : s.runAs r = s := by
  rw [State.runAs, h]
  rfl

theorem State.runAs_self (h : s.runState = r) : s.runAs r = s := by
  subst h
  rw [State.runAs, ite_self]

theorem State.canStep.runAs (hs : s.canStep) (hr : r.canRun = true) : (s.runAs r).canStep := by
  rw [State.runAs_of_canRun hs.2]
  exact ⟨hs.1, hr⟩

theorem State.takeTrap_ebreak_not_canRun (s : State) : (s.takeTrap .ebreak).runState.canRun = false := by
  rw [State.takeTrap_ebreak_runState]
  split <;> rfl

theorem exec_runAs (hs : s.runState.canRun = true) (i : Instr) :
    exec i (s.runAs r) = mapNext (·.runAs r) (exec i s) := by
  by_cases hi : i = .ebreak
  · subst hi
    have hhalt := State.runAs_of_not_canRun (r := r) (State.takeTrap_ebreak_not_canRun s)
    exact congrArg Host.Outcome.next hhalt.symm
  · have hrun : s.runAs r = s.withMonitor r s.icount s.crashed := State.runAs_of_canRun hs
    rw [hrun, exec_withMonitor s r _ _ hi]
    cases hex : exec i s with
    | next u =>
      obtain ⟨hcount, hcrashed⟩ := exec_icount_crashed hex
      have hu : u.runState.canRun = true := exec_runState hi hex ▸ hs
      simp [mapNext, State.withMonitor, State.runAs_of_canRun hu, ← hcount, ← hcrashed]
    | fault f => rfl
    | refused e => rfl

theorem engineStep_runAs (hs : s.runState.canRun = true) :
    engineStep (s.runAs r) = mapNext (·.runAs r) (engineStep s) := by
  have hfetch : (s.runAs r).fetch = s.fetch := rfl
  rw [engineStep, engineStep, hfetch]
  cases s.fetch with
  | error f => rfl
  | ok w =>
    cases hd : decode w with
    | error e => simp only [hd]; rfl
    | ok i => simp only [hd]; exact exec_runAs hs i

theorem State.monitor_runAs (o : Result) :
    (s.runAs r).monitor (mapNext (·.runAs r) o) = mapNext (·.runAs r) (s.monitor o) := by
  cases o <;> rfl

theorem step_runAs (hs : s.canStep) (hr : r.canRun = true) : step (s.runAs r) = mapNext (·.runAs r) (step s) := by
  rw [step_of_canStep hs, step_of_canStep (hs.runAs hr), engineStep_runAs hs.2, State.monitor_runAs]

end RunAs

/-! ## Batches -/

section Batches

variable {s t : State} {n : Nat}

/-- The loop of `execute` takes one step after another while the machine can step. -/
theorem batch_succ_runAs (hs : s.canStep) (h : step s = .next t) (n : Nat) :
    batch (n + 1) (s.runAs .running) = batch n (t.runAs .running) := by
  have hst : step (s.runAs .running) = .next (t.runAs .running) := by rw [step_runAs hs rfl, h]; rfl
  have hrun : (s.runAs .running).runState = .running := by rw [State.runAs_of_canRun hs.2]
  rw [batch, if_pos ⟨hrun, hs.1⟩, hst]

/-- `execute` of a machine that can step is its batch, ended. -/
theorem execute_eq_batch (hs : s.canStep) (n : Nat) :
    execute n s = mapNext State.endBatch (batch n (s.runAs .running)) := by
  rw [execute, if_neg (by simp [hs.1]), if_pos hs.2, State.runAs_of_canRun hs.2]
  cases batch n { s with runState := .running } <;> rfl

theorem State.endBatch_of_halted (hs : s.runState.canRun = false) : s.endBatch = s := by
  rw [State.endBatch, if_neg]
  rintro ⟨h, -⟩
  simp [h, RunState.canRun] at hs

/-- At the end of a batch Stopped takes the place of Running. -/
theorem State.endBatch_runAs_running (hs : s.crashed = false) : (s.runAs .running).endBatch = s.runAs .stopped := by
  by_cases hrun : s.runState.canRun = true
  · rw [State.runAs_of_canRun hrun, State.runAs_of_canRun hrun, State.endBatch, if_pos ⟨rfl, hs⟩]
  · have hhalt : s.runState.canRun = false := by simpa using hrun
    rw [State.runAs_of_not_canRun hhalt, State.runAs_of_not_canRun hhalt, State.endBatch_of_halted hhalt]

theorem State.endBatch_crashed (s : State) : s.endBatch.crashed = s.crashed := by
  rw [State.endBatch]
  split <;> rfl

/-- `execute` stops at a step that crashes, in Running. -/
theorem execute_succ_of_crash (hs : s.canStep) (h : step s = .next t) (ht : t.crashed = true) (n : Nat) :
    execute (n + 1) s = .next (t.runAs .running) := by
  have hover : ¬ ((t.runAs .running).runState = .running ∧ (t.runAs .running).crashed = false) :=
    fun hr => absurd (ht.symm.trans hr.2) (by decide)
  rw [execute_eq_batch hs, batch_succ_runAs hs h, batch_of_not_running n _ hover, mapNext, State.endBatch, if_neg hover]

theorem execute_one_of_step (hs : s.canStep) (h : step s = .next t) (ht : t.crashed = false) :
    execute 1 s = .next (t.runAs .stopped) := by
  rw [execute_eq_batch hs, batch_succ_runAs hs h, batch, mapNext, State.endBatch_runAs_running ht]

theorem execute_of_crashed (hs : s.crashed = true) (n : Nat) : execute n s = .fault .crashed := by
  rw [execute, if_pos hs]

/-- A batch never stops short of an answer, as a live machine always steps. -/
theorem exists_batch_next (n : Nat) (s : State) : ∃ t, batch n s = .next t := by
  induction n generalizing s with
  | zero => exact ⟨s, rfl⟩
  | succ n ih =>
    by_cases hrun : s.runState = .running ∧ s.crashed = false
    · obtain ⟨u, hu⟩ := liveMachineAlwaysSteps s hrun.2
      rw [batch, if_pos hrun, hu]
      exact ih u
    · exact ⟨s, batch_of_not_running _ s hrun⟩

theorem exists_execute_next (hc : s.crashed = false) (n : Nat) : ∃ t, execute n s = .next t := by
  obtain hs | hhalt := canStep_or_halted hc
  · obtain ⟨t, ht⟩ := exists_batch_next n (s.runAs .running)
    exact ⟨t.endBatch, by rw [execute_eq_batch hs, ht, mapNext]⟩
  · exact ⟨s, execute_of_not_canRun hc hhalt n⟩

/-- A batch that runs answers Running or a halt. -/
theorem batch_runState_ne_stopped (hs : s.runState ≠ .stopped) (h : batch n s = .next t) : t.runState ≠ .stopped := by
  induction n generalizing s with
  | zero => cases h; exact hs
  | succ n ih =>
    rw [batch] at h
    split at h
    case isFalse => cases h; exact hs
    case isTrue hrun =>
      split at h
      case h_1 u hu =>
        exact ih (runState_ne_of_step rfl ⟨hrun.2, by rw [hrun.1]; rfl⟩ hs hu) h
      case h_2 => cases h
      case h_3 => cases h

/-- A batch picks up where the one before it ended, short of a crash. -/
theorem execute_endBatch (hs : s.runState ≠ .stopped) (hc : s.crashed = false) (n : Nat) :
    execute n s.endBatch = mapNext State.endBatch (batch n s) := by
  by_cases hrun : s.runState = .running
  · have hstopped : s.endBatch = { s with runState := .stopped } := by rw [State.endBatch, if_pos ⟨hrun, hc⟩]
    have hback : s.endBatch.runAs .running = s := by
      rw [hstopped, State.runAs_of_canRun rfl, ← hrun]
    rw [execute_eq_batch (by rw [hstopped]; exact ⟨hc, rfl⟩), hback]
  · have hhalt := RunState.not_canRun_of_ne hrun hs
    rw [State.endBatch_of_halted hhalt, execute_of_not_canRun hc hhalt, batch_of_not_running n s fun h => hrun h.1,
      mapNext, State.endBatch_of_halted hhalt]

theorem execute_zero (hs : s.canStep) : execute 0 s = .next { s with runState := .stopped } := by
  rw [execute_eq_batch hs, batch, mapNext, State.endBatch_runAs_running hs.1, State.runAs_of_canRun hs.2]

theorem execute_zero_of_ne_running (hc : s.crashed = false) (hrun : s.runState ≠ .running) :
    execute 0 s = .next s := by
  obtain hs | hhalt := canStep_or_halted hc
  · rw [execute_zero hs, ← hs.eq_stopped hrun]
  · exact execute_of_not_canRun hc hhalt 0

/-- The host's single step (60_exceptions R273). -/
theorem execute_one_of_stopped (hs : s.canStep) (hstopped : s.runState = .stopped) (h : step s = .next t)
    (ht : t.crashed = false) : execute 1 s = .next t := by
  rw [execute_one_of_step hs h ht]
  obtain hrun | hrun | hrun := runState_cases_of_step hs h
  · rw [State.runAs_self (hrun.trans hstopped)]
  all_goals rw [State.runAs_of_not_canRun (by rw [hrun]; rfl)]

/-- A batch split in two, short of a crash (60_exceptions R251). -/
theorem execute_add {m n : Nat} (h : execute m s = .next t) (ht : t.crashed = false) :
    execute (m + n) s = execute n t := by
  by_cases hcrashed : s.crashed = true
  · rw [execute_of_crashed hcrashed] at h
    cases h
  have hlive : s.crashed = false := by simpa using hcrashed
  obtain hs | hhalt := canStep_or_halted hlive
  · obtain ⟨u, hu⟩ := exists_batch_next m (s.runAs .running)
    rw [execute_eq_batch hs, hu] at h
    cases h
    rw [State.endBatch_crashed] at ht
    have hne : u.runState ≠ .stopped := batch_runState_ne_stopped (by simp [State.runAs_of_canRun hs.2]) hu
    rw [execute_eq_batch hs, batch_add, hu, execute_endBatch hne ht n]
  · rw [execute_of_not_canRun hlive hhalt] at h ⊢
    cases h
    exact (execute_of_not_canRun hlive hhalt n).symm

end Batches

/-! ## Host operations on a live machine -/

theorem indexOf_regNames : ∀ {k : Nat} (hk : k < regNames.length), indexOf regNames[k] = some (BitVec.ofNat 5 k) := by
  decide

theorem indexOf_eq_none {name : String} (h : name ∉ regNames) : indexOf name = none := by
  rw [indexOf, positionOf_eq_none h]
  rfl

/-- A fitting image is written at MBASE, byte by byte (20_memory R62). -/
theorem State.loadImage_of_le {s : State} {image : List Byte} (hs : s.crashed = false)
    (hfit : image.length ≤ s.params.memSize) :
    s.loadImage image = .next { s with mem := s.mem.writeBytes s.params.memBase.toNat image } := by
  rw [State.loadImage, if_neg (by simp [hs]), if_neg (by omega)]

/-! ## Watchpoint slots (60_exceptions R275) -/

/-- The slots of both lists. -/
def WatchPool.slots (p : WatchPool) : List Nat := p.free ++ p.used.map Watchpoint.slot

theorem checkWatches_slots {h : HostChoices} {s : State} {ws seen used : List Watchpoint} {r : Report}
    (hcheck : checkWatches h s seen ws = .inl (used, r)) :
    used.map Watchpoint.slot = (seen ++ ws).map Watchpoint.slot := by
  induction ws generalizing seen with
  | nil => cases hcheck; simp
  | cons w ws ih =>
    rw [checkWatches] at hcheck
    split at hcheck
    case h_1 => cases hcheck; rfl
    case h_2 => cases hcheck
    case h_3 v _ =>
      split at hcheck
      case isTrue => simpa using ih hcheck
      case isFalse => cases hcheck; simp

theorem watchCheck_slots (h : HostChoices) (c : Session) : (watchCheck h c).1.pool.slots = c.pool.slots := by
  rw [watchCheck]
  split
  case h_1 used r hcheck =>
    have hslots := checkWatches_slots hcheck
    simpa [WatchPool.slots] using hslots
  case h_2 => rfl

theorem Session.ofResult_pool (c : Session) (r : Result) : (c.ofResult r).1.pool = c.pool := by
  cases r <;> rfl

theorem continueFor_slots (h : HostChoices) (n : Nat) (c : Session) : (continueFor h n c).1.pool.slots = c.pool.slots := by
  induction n generalizing c with
  | zero => rfl
  | succ n ih =>
    rw [continueFor]
    split
    case isFalse => rfl
    case isTrue =>
      split
      case h_2 => rfl
      case h_3 => rfl
      case h_1 s hs =>
        have hcheck := watchCheck_slots h { c with machine := s }
        dsimp only
        split
        case isTrue => rfl
        case isFalse =>
          generalize watchCheck h { c with machine := s } = answer at hcheck ⊢
          obtain ⟨d, r⟩ := answer
          cases r with
          | done | diagnostic =>
            dsimp only
            split
            · exact (ih d).trans hcheck
            · exact hcheck
          | value | words | watching | changed | crashed => exact hcheck

theorem watch_slots_perm (h : HostChoices) (text : String) (c : Session) :
    (watch h text c).1.pool.slots.Perm c.pool.slots := by
  rw [watch]
  split
  case h_1 => exact .refl _
  case h_2 => exact .refl _
  case h_3 v _ =>
    split
    case h_1 => exact .refl _
    case h_2 k ks hfree =>
      simp only [WatchPool.slots, hfree, List.map_append, List.map_cons, List.map_nil, ← List.append_assoc]
      exact List.perm_append_singleton k _

/-- In a pool without a double slot, `delete` moves one. -/
theorem unwatch_slots_perm (id : Nat) (c : Session) (hnodup : c.pool.slots.Nodup) :
    (unwatch id c).1.pool.slots.Perm c.pool.slots := by
  rw [unwatch]
  split
  case isFalse => exact .refl _
  case isTrue hused =>
    have hmem : id ∈ c.pool.used.map Watchpoint.slot := by simpa using hused
    have hkept : (c.pool.used.filter fun w => w.slot != id).map Watchpoint.slot =
        (c.pool.used.map Watchpoint.slot).erase id := by
      rw [(hnodup.of_append_right).erase_eq_filter, List.filter_map]
      rfl
    simp only [WatchPool.slots, hkept, List.append_assoc, List.singleton_append]
    exact .append_left _ (List.perm_cons_erase hmem).symm

theorem continueCommand_slots (h : HostChoices) (n : Nat) (c : Session) :
    (continueCommand h n c).1.pool.slots = c.pool.slots := by
  rw [continueCommand]
  split
  · exact continueFor_slots h n c
  · exact congrArg WatchPool.slots (c.ofResult_pool _)

theorem examineExpr_pool (h : HostChoices) (n : Nat) (expr : String) (c : Session) :
    (examineExpr h n expr c).1.pool = c.pool := by
  rw [examineExpr]
  split <;> rfl

theorem printExpr_pool (h : HostChoices) (expr : String) (c : Session) : (printExpr h expr c).1.pool = c.pool := by
  rw [printExpr]
  split <;> rfl

theorem runCommand_slots_perm (h : HostChoices) (cmd : Command) (c : Session) (hnodup : c.pool.slots.Nodup) :
    (runCommand h cmd c).1.pool.slots.Perm c.pool.slots := by
  unfold runCommand
  split
  case isTrue => exact .refl _
  case isFalse =>
    cases cmd with
    | cont n => exact .of_eq (continueCommand_slots h n c)
    | step | quit => exact .of_eq (congrArg WatchPool.slots (c.ofResult_pool _))
    | examine n expr => exact .of_eq (congrArg WatchPool.slots (examineExpr_pool h n expr c))
    | print expr => exact .of_eq (congrArg WatchPool.slots (printExpr_pool h expr c))
    | watch expr => exact watch_slots_perm h expr c
    | delete id => exact unwatch_slots_perm id c hnodup
    | info | help | unrecognized | misused => exact .refl _

/-! ## `continue` (60_exceptions R273, R274) -/

theorem runCommand_cont {h : HostChoices} {n : Nat} {c : Session} (hc : c.machine.crashed = false) :
    runCommand h (.cont n) c = continueCommand h n c := by
  rw [runCommand, if_neg (by simp [hc])]

theorem continueCommand_of_checking {h : HostChoices} (hcheck : h.watchpointChecking = true) (n : Nat) (c : Session) :
    continueCommand h n c = continueFor h n c := by
  rw [continueCommand, if_pos hcheck]

theorem continueCommand_of_not_checking {h : HostChoices} (hcheck : h.watchpointChecking = false) (n : Nat) (c : Session) :
    continueCommand h n c = alone (c.ofResult (execute n c.machine)) := by
  rw [continueCommand, if_neg (by simp [hcheck])]

theorem watchCheck_of_unused (h : HostChoices) {c : Session} (hc : c.pool.used = []) : watchCheck h c = (c, .done) := by
  rw [watchCheck, hc, checkWatches, ← hc]

section SingleStep

variable {h : HostChoices} {n : Nat} {c d : Session} {s : State} (hs : c.machine.canStep)
  (hex : execute 1 c.machine = .next s)
include hs hex

theorem continueFor_succ_of_crash (hc : s.crashed = true) :
    continueFor h (n + 1) c = ({ c with machine := s }, [.crashed]) := by
  rw [continueFor, if_pos hs.2, hex]
  exact if_pos hc

theorem continueFor_succ_of_done (hc : s.crashed = false) (hcheck : watchCheck h { c with machine := s } = (d, .done)) :
    continueFor h (n + 1) c = if s.runState = .stopped then continueFor h n d else (d, [.done]) := by
  rw [continueFor, if_pos hs.2, hex]
  simp [hc, hcheck]

theorem continueFor_succ_of_diagnostic (hc : s.crashed = false)
    (hcheck : watchCheck h { c with machine := s } = (d, .diagnostic)) :
    continueFor h (n + 1) c =
      if h.continueAfterFailure ∧ s.runState = .stopped then
        ((continueFor h n d).1, .diagnostic :: (continueFor h n d).2)
      else (d, [.diagnostic]) := by
  rw [continueFor, if_pos hs.2, hex]
  simp [hc, hcheck]

theorem continueFor_succ_of_changed (hc : s.crashed = false) {slot : Nat} {old new : Word}
    (hcheck : watchCheck h { c with machine := s } = (d, .changed slot old new)) :
    continueFor h (n + 1) c = (d, [.changed slot old new]) := by
  rw [continueFor, if_pos hs.2, hex]
  simp [hc, hcheck]

end SingleStep

theorem continueFor_of_halted {h : HostChoices} {c : Session} (hhalt : c.machine.runState.canRun = false) (n : Nat) :
    continueFor h n c = (c, [.done]) := by
  cases n with
  | zero => rfl
  | succ n => rw [continueFor, if_neg (by simp [hhalt])]

theorem alone_ofResult_next (c : Session) {s : State} (hs : s.crashed = false) :
    alone (c.ofResult (.next s)) = ({ c with machine := s }, [.done]) := by
  simp [alone, Session.ofResult, hs]

/-- With no watchpoint in use every check passes, so single steps come to the same as one batch. -/
theorem continueFor_of_unused (h : HostChoices) (n : Nat) {c : Session} (hc : c.machine.crashed = false)
    (hrun : c.machine.runState ≠ .running) (hused : c.pool.used = []) :
    continueFor h n c = alone (c.ofResult (execute n c.machine)) := by
  induction n generalizing c with
  | zero =>
    rw [execute_zero_of_ne_running hc hrun, alone_ofResult_next c hc, continueFor]
  | succ n ih =>
    obtain hs | hhalt := canStep_or_halted hc
    case inr => rw [continueFor_of_halted hhalt, execute_of_not_canRun hc hhalt, alone_ofResult_next c hc]
    obtain ⟨t, ht⟩ := liveMachineAlwaysSteps c.machine hc
    cases hcrash : t.crashed with
    | true =>
      have hex (k : Nat) := execute_succ_of_crash hs ht hcrash k
      rw [continueFor_succ_of_crash hs (hex 0) hcrash, hex n]
      simp [alone, Session.ofResult, State.runAs, hcrash]
    | false =>
      have hex := execute_one_of_stopped hs (hs.eq_stopped hrun) ht hcrash
      have hcheck := watchCheck_of_unused h (c := { c with machine := t }) hused
      have htrun : t.runState ≠ .running := runState_ne_of_step rfl hs hrun ht
      rw [continueFor_succ_of_done hs hex hcrash hcheck, Nat.add_comm n 1, execute_add hex hcrash]
      split
      case isTrue =>
        have hrest := ih (c := { c with machine := t }) hcrash htrun hused
        obtain ⟨u, hu⟩ := exists_execute_next hcrash n
        dsimp only at hrest
        rw [hrest, hu]
        rfl
      case isFalse hne =>
        rw [execute_of_not_canRun hcrash (RunState.not_canRun_of_ne htrun hne), alone_ofResult_next c hcrash]

/-! ### The check after a step, by the oldest watchpoint (60_exceptions R274) -/

theorem watchCheck_of_changed {h : HostChoices} {c : Session} {w : Watchpoint} {ws : List Watchpoint} {v : Word}
    (hused : c.pool.used = w :: ws) (hval : evaluate h c.machine w.text = .value v) (hne : v ≠ w.last) :
    watchCheck h c =
      ({ c with pool := { c.pool with used := { w with last := v } :: ws } }, .changed w.slot w.last v) := by
  simp [watchCheck, checkWatches, hused, hval, hne]

theorem watchCheck_of_failed {h : HostChoices} {c : Session} {w : Watchpoint} {ws : List Watchpoint}
    (hused : c.pool.used = w :: ws) (hval : evaluate h c.machine w.text = .failed) :
    watchCheck h c = (c, .diagnostic) := by
  simp only [watchCheck, checkWatches, hused, hval, List.nil_append]
  rw [← hused]

/-! ## The command table (60_exceptions R278) -/

section CommandLine

variable {budget : Nat} {line name : String} {rest : List Char}

theorem readCommand_of_lookup {read : List Char → Option Command} (hline : splitWord line.toList = (name.toList, rest))
    (hname : (commandTable budget).lookup name = some read) : readCommand budget line = (read rest).getD .misused := by
  simp [readCommand, hline, hname]

theorem readCommand_of_unknown (hline : splitWord line.toList = (name.toList, rest))
    (hname : (commandTable budget).lookup name = none) : readCommand budget line = .unrecognized := by
  simp [readCommand, hline, hname]

theorem lookup_commandTable_eq_none
    (h : name ∉ ["continue", "info", "step", "examine", "print", "quit", "watch", "delete", "help"]) :
    (commandTable budget).lookup name = none := by
  rw [List.lookup_eq_none_iff]
  simpa [commandTable] using h

theorem noArgument_of_ne_nil (cmd : Command) (h : rest ≠ []) : noArgument cmd rest = none := by
  simp [noArgument, h]

theorem exprArgument_nil (mk : String → Command) : exprArgument mk [] = none := rfl

theorem examineArguments_eq_none (h : readCount (splitWord rest).1 = none ∨ (splitWord rest).2 = []) :
    examineArguments rest = none := by
  unfold examineArguments
  obtain hcount | hempty := h
  · rw [hcount]
  · rw [hempty]
    split
    · exact exprArgument_nil _
    · rfl

theorem deleteArgument_eq_none (h : readCount (splitWord rest).1 = none ∨ (splitWord rest).2 ≠ []) :
    deleteArgument rest = none := by
  unfold deleteArgument
  obtain hcount | hmore := h
  · rw [hcount]
  · split
    · exact noArgument_of_ne_nil _ hmore
    · rfl

end CommandLine

/-! ## The statements -/

/-- Settles O20: the word's step is the same from Running, and leaves it, so it ends the batch. -/
theorem invalidWordAbortsTheProgram : Obligations.InvalidWordAbortsTheProgram := by
  intro s e hs hr hd
  have hword := decodeBytes_eq_error_iff.1 hd
  have hst {r : RunState} (hcan : ({ s with runState := r } : State).canStep) :
      step { s with runState := r } = .next { s with runState := .aborted, icount := s.icount + 1 } :=
    step_of_decode_error hcan (State.fetch_of_inRange hr) hword
  exact ⟨hst hs, execute_succ_of_halt hs (hst ⟨hs.1, rfl⟩) (by simp)⟩

/-- Settles O23: a step that crashes ends the batch, and changes the mark alone. -/
theorem executeStopsAtACrash : Obligations.ExecuteStopsAtACrash := by
  intro s t n hs h hc
  rw [execute_succ_of_crash hs h hc, hs.eq_of_crashed h hc]
  exact congrArg _ (State.runAs_of_canRun hs.2)

/-- Settles O26, by the two ways of a step that can run (`State.canStep.step_cases`). -/
theorem stepsThatReturnAreCounted : Obligations.StepsThatReturnAreCounted := by
  refine fun s t => ⟨fun hs h hc => ?returns, fun hs h hc => ?crashes, fun n hhalt h => ?refused⟩
  case returns =>
    obtain rfl | ⟨-, hcount⟩ := hs.step_cases h
    · cases hc
    · exact hcount
  case crashes => rw [hs.eq_of_crashed h hc]
  case refused =>
    by_cases hc : s.crashed = true
    · rw [execute_of_crashed hc] at h
      cases h
    · rw [execute_of_not_canRun (by simpa using hc) hhalt] at h
      cases h
      rfl

/-- Settles O27: a crash changes the mark alone, and a changed run state comes from a trap. -/
theorem trapsArePrecise : Obligations.TrapsArePrecise := by
  intro s t hs h hraised
  obtain hc | hrun := hraised
  · rw [hs.eq_of_crashed h hc]
    exact ⟨fun _ => rfl, rfl, rfl⟩
  · obtain ⟨e, rfl⟩ := trap_of_runState_ne hs h hrun
    exact ⟨s.readReg_takeTrap e, s.takeTrap_pc e, s.takeTrap_mem e⟩

/-- Settles O51: `execute_add`. -/
theorem splittingABatchChangesNothing : Obligations.SplittingABatchChangesNothing :=
  fun _ _ _ _ h ht => execute_add h ht

/-- Settles O52: the step never enters Running, so relabelling it Stopped changes nothing. -/
theorem executeOneIsOneStep : Obligations.ExecuteOneIsOneStep := by
  refine fun s => ⟨fun t hstopped h ht => ?one, fun hs => ?zero⟩
  case one =>
    have hs : s.canStep := ⟨(step_cases h).1, by rw [hstopped]; rfl⟩
    exact execute_one_of_stopped hs hstopped h ht
  case zero => exact execute_zero hs

/-- Settles O54: the words in range are read one by one, and the first one out of range faults. -/
theorem examineReadsWordsOrCrashes : Obligations.ExamineReadsWordsOrCrashes := by
  intro n a s hs
  rw [examine, if_neg (by simp [hs])]
  refine ⟨fun hall => ?inside, fun k hk hbefore hout => ?outside⟩
  case inside =>
    obtain ⟨ws, hlen, hwords, hex⟩ := examineFrom_append s n 0 a hall
    refine ⟨ws, ?_, hlen, hwords⟩
    simpa [examineFrom] using hex
  case outside =>
    obtain ⟨ws, hlen, hwords, hex⟩ := examineFrom_append s k (n - k - 1 + 1) a hbefore
    refine ⟨ws, ?_, hlen, hwords⟩
    rw [examineFrom, State.memRead_of_not_inRange (by decide) hout, show k + (n - k - 1 + 1) = n by omega] at hex
    simpa [State.takeTrap] using hex

/-- Settles O55: a command permutes the slots of the pool at most. -/
theorem watchpointSlotsStayPartitioned : Obligations.WatchpointSlotsStayPartitioned := fun h cmd c hpart =>
  (runCommand_slots_perm h cmd c (hpart.nodup_iff.2 List.nodup_range)).trans hpart

/-- Settles O57: each operation passes its test of the mark; an image is written byte by byte. -/
theorem liveMachineAnswersTheHost : Obligations.LiveMachineAnswersTheHost := by
  intro s hs
  have hlive : ¬ s.crashed = true := by simp [hs]
  have hname (name : String) : inspectName s name = .ok ((indexOf name).map s.readReg) := if_neg hlive
  refine ⟨if_neg hlive, if_neg hlive, fun _ => if_neg hlive, hname "zero", hname "t0", hname "a0", fun k hk => ?names,
    fun name hn => ?noName, if_neg hlive, if_neg hlive, fun image hlong => ?tooLong, fun image hwf hfit => ?fits⟩
  case names => rw [hname, indexOf_regNames hk]; rfl
  case noName => rw [hname, indexOf_eq_none hn]; rfl
  case tooLong => rw [State.loadImage, if_neg hlive, if_pos hlong]
  case fits =>
    refine ⟨_, State.loadImage_of_le hs hfit, fun k hk => ?inside, fun b hb => ?outside, fun _ => rfl, rfl, rfl, rfl, rfl,
      rfl⟩
    case inside =>
      rw [Memory.read_writeBytes _ _ _ _ hwf, dif_pos (by omega)]
      simp
    case outside => rw [Memory.read_writeBytes _ _ _ _ hwf, dif_neg (by omega)]

/-- Settles O58: without checking by definition, and without watchpoints by `continueFor_of_unused`. -/
theorem continueWithoutWatchpointsIsExecute : Obligations.ContinueWithoutWatchpointsIsExecute := by
  intro h n c hc hrun hnone
  obtain ⟨s, hs⟩ := exists_execute_next hc n
  refine ⟨s, hs, ?_⟩
  have hexec : continueCommand h n c = alone (c.ofResult (execute n c.machine)) := by
    cases hcheck : h.watchpointChecking with
    | false => exact continueCommand_of_not_checking hcheck n c
    | true =>
      have hused := hnone.resolve_left (by simp [hcheck])
      exact (continueCommand_of_checking hcheck n c).trans (continueFor_of_unused h n hc hrun hused)
  rw [runCommand_cont hc, hexec, hs]
  rfl

/-- Settles O7: each operation tests the mark first. -/
theorem crashedMachineDefinesNoOperation : Obligations.CrashedMachineDefinesNoOperation := by
  intro s hs
  exact ⟨if_pos hs, fun _ => if_pos hs, if_pos hs, if_pos hs, fun _ => if_pos hs, if_pos hs, fun _ => if_pos hs, if_pos hs,
    if_pos hs, fun _ => if_pos hs, fun _ _ => if_pos hs⟩

/-- Settles O18: the four bytes are the fetched word. -/
theorem stepRunsTheDecodedInstruction : Obligations.StepRunsTheDecodedInstruction := by
  intro s i hs hr hd
  rw [step_of_canStep hs, engineStep_of_decode (State.fetch_of_inRange hr) (decodeBytes_eq_ok_iff.1 hd)]
  cases exec i s <;> rfl

/-- Settles O24: none of the three run states can run. -/
theorem haltedMachineDoesNotRun : Obligations.HaltedMachineDoesNotRun := by
  intro s hc hhalt
  have hrun : s.runState.canRun = false := by
    obtain h | h | h := hhalt <;> rw [h] <;> rfl
  exact ⟨step_of_not_canRun hc (by simp [hrun]), execute_of_not_canRun hc hrun⟩

/-- Settles O53, by whether the machine is Aborted. -/
theorem quitIsRefusedByAbortedAlone : Obligations.QuitIsRefusedByAbortedAlone := by
  intro s hc
  rw [quit, if_neg (by simp [hc])]
  by_cases h : s.runState = .aborted
  · rw [if_pos h, if_pos h, ← h]
  · rw [if_neg h, if_neg h]

/-- Settles O56: each expression is evaluated, and none meets one of the host's choices. -/
theorem specsExpressionsEvaluate : Obligations.SpecsExpressionsEvaluate := fun _ => ⟨rfl, rfl, rfl, rfl⟩

/-- Settles O59, by what the check makes of the oldest watchpoint. -/
theorem continueReportsAChangedValue : Obligations.ContinueReportsAChangedValue := by
  intro h n c s w ws hcheck hs hex hc hused
  have hcont (m : Nat) {d : Session} (hd : d.machine.crashed = false) : runCommand h (.cont m) d = continueFor h m d :=
    (runCommand_cont hd).trans (continueCommand_of_checking hcheck m d)
  rw [hcont (n + 1) hs.1, hcont n (d := { c with machine := s }) hc]
  refine ⟨fun v hval hne => ?changed, fun hfail => ?failed⟩
  case changed =>
    exact continueFor_succ_of_changed hs hex hc (watchCheck_of_changed (c := { c with machine := s }) hused hval hne)
  case failed =>
    rw [continueFor_succ_of_diagnostic hs hex hc (watchCheck_of_failed (c := { c with machine := s }) hused hfail)]
    exact ⟨fun hgo hstopped => if_pos ⟨hgo, hstopped⟩, fun hend => if_neg (by simpa [imp_iff_not_or] using hend)⟩

/-- Settles O60: the nine lines are read, and every other clause follows from the table's entry for the name. -/
theorem commandLinesGoThroughTheTable : Obligations.CommandLinesGoThroughTheTable := by
  refine fun budget => ⟨rfl, rfl, rfl, rfl, rfl, rfl, rfl, rfl, rfl, fun line name rest hline => ?table,
    fun h c hc => ?effects⟩
  case table =>
    have misused {read : List Char → Option Command} (hname : (commandTable budget).lookup name = some read)
        (hargs : read rest = none) : readCommand budget line = .misused := by
      rw [readCommand_of_lookup hline hname, hargs]
      rfl
    refine ⟨fun hn => readCommand_of_unknown hline (lookup_commandTable_eq_none hn), fun hn hrest => ?noArgument,
      fun hn hrest => ?expression, fun hn hargs => ?examine, fun hn hargs => ?delete⟩
    case noArgument => obtain rfl | rfl | rfl := hn <;> exact misused rfl (noArgument_of_ne_nil _ hrest)
    case expression =>
      subst hrest
      obtain rfl | rfl := hn <;> exact misused rfl (exprArgument_nil _)
    case examine => subst hn; exact misused rfl (examineArguments_eq_none hargs)
    case delete => subst hn; exact misused rfl (deleteArgument_eq_none hargs)
  case effects =>
    have hlive : ¬ c.machine.crashed = true := by simp [hc]
    exact ⟨if_neg hlive, if_neg hlive, fun _ => rfl⟩

end Sys2Proof.Machine
end

section
/-! # Family 70_reset_and_hazards: reset and start-up

Both resets write the pc and slot 0 of the registers, and with legal parameters the reset pc does not wrap. A launch of
legal parameters whose image fits answers one machine (`launched`, `start_of_fits`): memory filled, the image loaded, the
explicit reset. Each of the three parts is sound or keeps soundness, and so every launch is sound. -/

namespace Sys2Proof.Machine

/-! ## Reset (70_reset_and_hazards R300, R304) -/

section Reset

variable (s : State)

theorem State.resetCore_regs_zero : s.resetCore.regs[0] = 0#32 := by simp

theorem State.resetCore_regs_of_ne {k : Nat} (hk : k < 32) (hne : k ≠ 0) : s.resetCore.regs[k] = s.regs[k] := by
  simp [Ne.symm hne]

variable {s}

/-- With legal parameters the reset pc is the exact sum (00_scope R6). -/
theorem State.resetCore_pc_toNat (hp : s.params.wf = true) :
    s.resetCore.pc.toNat = s.params.memBase.toNat + s.params.resetOffset := by
  obtain ⟨-, hend, hreset⟩ := of_decide_eq_true hp
  rw [State.resetCore_pc, BitVec.toNat_add, BitVec.toNat_ofNat]
  omega

/-- With legal parameters the first fetch is in range (00_scope R6). -/
theorem State.resetCore_pc_inRange (hp : s.params.wf = true) : InRange s.params s.resetCore.pc.toNat 4 := by
  have hreset : s.params.resetOffset + 4 ≤ s.params.memSize := (of_decide_eq_true hp).2.2
  rw [State.resetCore_pc_toNat hp]
  omega

theorem State.Sound.explicitReset (h : s.Sound) : s.explicitReset.Sound :=
  h.congr (s.resetCore_regs_zero.trans h.regZero.symm) rfl rfl

end Reset

/-! ## The image (20_memory R62) -/

theorem State.loadImage_of_gt {s : State} {image : List Byte} (hs : s.crashed = false)
    (hlong : s.params.memSize < image.length) : s.loadImage image = .refused .imageTooLarge := by
  rw [State.loadImage, if_neg (by simp [hs]), if_pos hlong]

/-- An image lists no byte outside memory. -/
theorem State.Sound.loadImage {s t : State} {image : List Byte} (h : s.Sound) (ht : s.loadImage image = .next t) :
    t.Sound := by
  have hcanon := State.loadImage_wf ht h.memCanon
  obtain ⟨-, hfit, rfl⟩ := State.loadImage_next ht
  refine ⟨h.regZero, hcanon, fun c hc => ?_, h.params⟩
  obtain hold | hnew := Memory.mem_writeBytes _ _ _ c hc
  · exact h.memInside c hold
  · dsimp only
    omega

/-! ## Launches (70_reset_and_hazards R301) -/

section Launch

variable (p : Params) (image : List Byte) (filler : Nat → Byte) (regs0 : Vector Word 31)

/-- The machine that a launch answers, if its parameters are legal and its image fits. -/
def launched : State :=
  State.explicitReset { filledState p filler regs0 with
    mem := (Memory.fill filler p.memBase.toNat p.memSize).writeBytes p.memBase.toNat image }

theorem readReg_launched {k : Nat} (hk : k < 31) :
    (launched p image filler regs0).readReg (BitVec.ofNat 5 (k + 1)) = regs0[k] := by
  rw [launched, State.readReg_explicitReset]
  exact readReg_filledState p filler regs0 k hk

theorem launched_mem_read_image {k : Nat} (hk : k < image.length) :
    (launched p image filler regs0).mem.read (p.memBase.toNat + k) = image[k] := by
  rw [launched, State.explicitReset_mem, Memory.read_writeBytes _ _ _ _ (Memory.wf_fill _ _ _), dif_pos (by omega)]
  simp

theorem launched_mem_read_filler {a : Nat} (hlo : p.memBase.toNat + image.length ≤ a)
    (hhi : a < p.memBase.toNat + p.memSize) : (launched p image filler regs0).mem.read a = filler a := by
  rw [launched, State.explicitReset_mem, Memory.read_writeBytes _ _ _ _ (Memory.wf_fill _ _ _), dif_neg (by omega),
    Memory.read_fill, if_pos (by omega)]

variable {p image}

theorem start_of_illegal (hp : p.wf = false) (given : Option (List Byte)) :
    start p given filler regs0 = .refused .launchParameters :=
  if_pos hp

variable (hp : p.wf = true)
include hp

theorem start_of_fits {given : Option (List Byte)} (hfit : (given.getD builtInImage).length ≤ p.memSize) :
    start p given filler regs0 = .next (launched p (given.getD builtInImage) filler regs0) := by
  rw [start, if_neg (by simp [hp]), State.loadImage_of_le rfl hfit]
  rfl

theorem start_of_tooLarge {given : Option (List Byte)} (hlong : p.memSize < (given.getD builtInImage).length) :
    start p given filler regs0 = .refused .imageTooLarge := by
  rw [start, if_neg (by simp [hp]), State.loadImage_of_gt rfl hlong]

theorem builtInImage_fits : builtInImage.length ≤ p.memSize := (of_decide_eq_true hp).1

theorem filledState_sound : (filledState p filler regs0).Sound where
  regZero := Vector.getElem_append_left (by decide)
  memCanon := Memory.wf_fill _ _ _
  memInside := fun c hc => Memory.mem_fill _ _ _ c hc
  params := hp

theorem launched_sound (hfit : image.length ≤ p.memSize) : (launched p image filler regs0).Sound :=
  ((filledState_sound filler regs0 hp).loadImage (State.loadImage_of_le rfl hfit)).explicitReset

end Launch

/-! ## The statements -/

/-- Settles O3: the answer is `launched`, whose registers and memory are read part by part. -/
theorem startUpGivesTheResetValues : Obligations.StartUpGivesTheResetValues := by
  intro p image filler regs0 hp hfit
  exact ⟨launched p image filler regs0, start_of_fits (given := some image) filler regs0 hp hfit, rfl,
    fun _ => readReg_launched p image filler regs0, rfl, fun _ => launched_mem_read_image p image filler regs0,
    fun _ => launched_mem_read_filler p image filler regs0, rfl, rfl, rfl, rfl⟩

/-- Settles O5: a launch that answers is legal and its image fits, so it is `launched`; its pc is the exact sum. -/
theorem startUpMeetsTheInvariant : Obligations.StartUpMeetsTheInvariant := by
  intro p image filler regs0 t h
  obtain ⟨hp, hfit, rfl⟩ := start_next h
  have hsound := launched_sound filler regs0 hp hfit
  refine ⟨hsound, fun heven => ⟨hsound, ?_⟩⟩
  rwa [State.explicitReset_pc, State.resetCore_pc_toNat hp]

/-- Settles O1: the frame of the reset, and its pc under legal parameters. -/
theorem resetWritesPcAndRegisterZeroOnly : Obligations.ResetWritesPcAndRegisterZeroOnly := fun s =>
  ⟨s.resetCore_pc, s.resetCore_regs_zero, fun _ => s.resetCore_regs_of_ne, fun _ => rfl, ⟨rfl, rfl, rfl, rfl⟩,
    fun hp => ⟨State.resetCore_pc_toNat hp, State.resetCore_pc_inRange hp⟩⟩

/-- Settles O4: the two refusals, and the built-in image fits every legal memory. -/
theorem startUpRefusesBadLaunches : Obligations.StartUpRefusesBadLaunches := by
  refine fun p filler regs0 => ⟨start_of_illegal filler regs0, fun hp image hlong => ?tooLarge, fun hp => ?builtIn⟩
  case tooLarge => exact start_of_tooLarge (given := some image) filler regs0 hp hlong
  case builtIn =>
    have hfit := builtInImage_fits hp
    exact ⟨launched p builtInImage filler regs0, start_of_fits (given := none) filler regs0 hp hfit,
      start_of_fits (given := some builtInImage) filler regs0 hp hfit⟩

/-- Settles O6: the explicit reset is the reset, but for the run state and the counter. -/
theorem explicitResetKeepsRegistersAndMemory : Obligations.ExplicitResetKeepsRegistersAndMemory := fun s =>
  ⟨s.resetCore_pc, s.resetCore_regs_zero, fun _ => s.resetCore_regs_of_ne, fun _ => rfl, rfl, rfl, rfl, rfl⟩

end Sys2Proof.Machine
end
